-- ==== Sys2Proof/Word.lean ====
section
/-! DEFINITION. The fixed-width words of the framing block (spec/00_scope.md R8, R9): every value is
unsigned and bit 0 is the least significant. -/

namespace Sys2Proof

/-- A byte: the data bits of a unit, a cell of the buffer (R8, R60). -/
abbrev Byte := BitVec 8

/-- Half a byte: the address field and the reserved field of an address word (R61). -/
abbrev Nibble := BitVec 4

/-- The checksum and the CRC register (R8, R90). -/
abbrev Word16 := BitVec 16

/-- The command word `c[10:0]` by which the environment names an operation (R65). -/
abbrev CommandWord := BitVec 11

end Sys2Proof
end

