-- ==== Sys2Proof/Config.lean ====
section
/-! DEFINITION. The implementation parameters of spec/00_scope.md R7: the two that are open, as a record the
model takes as an argument (State carries it), and the fixed ones as constants. -/

namespace Sys2Proof

/-- The open parameters of R7, fixed for the life of an instance: no operation changes them. -/
structure Params where
  /-- `CAP`, the capacity of the accumulation buffer in bytes (R7, D4: OPEN, at least 258). -/
  cap : Nat
  /-- `MASTER_ADDR`, the node address a Master takes (R7, D5: OPEN, at most `0x0F`). -/
  masterAddr : Byte
  deriving DecidableEq, Repr

namespace Config

/-- The least legal `CAP` (R7): room for the largest frame image, 258 bytes (R47). -/
abbrev minCap : Nat := 258

/-- The largest legal node address (R7, R28): four bits cross the wire. -/
abbrev maxAddr : Byte := 0x0F

/-- `BROADCAST`, in the domain of received and decoded addresses (R7; 90_conflicts.md C1). Log 11. -/
abbrev broadcast : Byte := 0x0F

/-- The length byte the deframer rejects: "255 and above rejected" (R7 `MAX_RX_LEN = 254`, R110). -/
abbrev rejectedLength : Byte := 0xFF

/-- `MAX_RX_LEN`: the largest length byte the deframer accepts (R7). -/
abbrev maxRxLen : Nat := 254

/-- `MAX_TX_LEN`: the largest payload SEND accepts (R7). -/
abbrev maxTxLen : Nat := 253

/-- `ACK_CODE` (R7, R68). -/
def ackCode : List Byte := [0x11, 0x00, 0x00, 0x00]

/-- `NACK_CODE` (R7, R68). -/
def nackCode : List Byte := [0x12, 0x00, 0x00, 0x00]

/-- The parameters State.reset takes: `CAP = 258` is the reference value of 95_test_vectors.md,
`MASTER_ADDR = 0x00` is the model's own. DESIGN CHOICE, unsafe: log 1. -/
def referenceParams : Params := { cap := 258, masterAddr := 0x00 }

end Config
end Sys2Proof
end

