-- ==== Sys2Proof/Syntax.lean ====
section
/-! DEFINITION. The five operations of spec/00_scope.md R6 as syntax, the command that names one
(spec/30_encoding.md R65, R67) and the 9-bit unit of the wire (R60). -/

namespace Sys2Proof

/-- `ROLE` (R27, R172): a node is a Master or a Slave. -/
inductive Role where
  | master
  | slave
  deriving DecidableEq, Repr

/-- One constructor per row of spec/opcode_table.json. -/
inductive Instr where
  /-- INGEST.ADDR (R125): an address word, its fields `addr = u[7:4]` and `rsv = u[3:0]` (R61). -/
  | ingestAddr (addr rsv : Nibble)
  /-- INGEST.DATA (R126): a data word, its byte `u[7:0]` (R62). -/
  | ingestData (data : Byte)
  /-- ASSEMBLE (R140): no operands; the `arg` bits of its command word are ignored (R65). -/
  | assemble
  /-- SEND (R150): the payload, an operand outside the command word, of any length (R67). -/
  | send (payload : List Byte)
  /-- RESET (R190): the role and the own address, the latter used for a Slave only (R66). -/
  | reset (role : Role) (ownAddress : Byte)
  deriving DecidableEq, Repr

/-- What the environment presents for one operation: the command word (R65) and the payload operand that
stands beside it (R67), which SEND alone reads. Log 8. -/
structure Command where
  word : CommandWord
  payload : List Byte
  deriving DecidableEq, Repr

/-- The 9-bit unit of the wire as the pair R60 asks a model to take: the address-marker bit and the data. -/
structure WireUnit where
  marker : Bool
  data : Byte
  deriving DecidableEq, Repr

end Sys2Proof
end

