-- ==== Sys2Proof/WellFormed.lean ====
section
/-! DEFINITION. The checks the spec puts on operands and parameters. No command word is illegal
(spec/30_encoding.md R65, R75), so the one check on an instruction is the precondition of construction (R191);
a RESET that fails it still runs, and is answered `Refused`. -/

namespace Sys2Proof

/-- A legal node address fits the four bits that cross the wire (R28). -/
abbrev legalAddress (a : Byte) : Bool := a.toNat ≤ Config.maxAddr.toNat

/-- The constraints R7 puts on the parameters of an instance. -/
def Params.wellFormed (p : Params) : Bool :=
  Config.minCap ≤ p.cap && legalAddress p.masterAddr

/-- An instruction as R191 asks the environment to give it: "a model should take own_address <= 0x0F as a
precondition of construction". Every other operand value is legal (R65, R67, R73). -/
def Instr.wellFormed : Instr → Bool
  | .ingestAddr _ _ => true
  | .ingestData _ => true
  | .assemble => true
  | .send _ => true
  | .reset .master _ => true
  | .reset .slave own => legalAddress own

end Sys2Proof
end

