-- ==== Sys2Proof/Decode.lean ====
section
/-! DEFINITION. The decoder of spec/30_encoding.md R65, R66, R75 (total on command words), the packing of the 9-bit
unit (R60), and the encoder written from the same tables. -/

namespace Sys2Proof

/-- The `op` field `c[10:9]` of a command word (R65). -/
def CommandWord.op (c : CommandWord) : BitVec 2 := c.extractLsb' 9 2

/-- Bit 8 of a command word: the marker of an INGEST's unit (R60), the role of a RESET (R66). -/
def CommandWord.bit8 (c : CommandWord) : Bool := c.getLsbD 8

/-- `c[7:0]`: the data bits of an INGEST's unit, the own address of a RESET. -/
def CommandWord.low (c : CommandWord) : Byte := c.extractLsb' 0 8

/-- The stored form of a role, `0` Master and `1` Slave (R66, R23). -/
def Role.ofBit (b : Bool) : Role := if b then .slave else .master

/-- The role as the bit `arg[8]` of a RESET command (R66). -/
def Role.bit : Role → Bool
  | .master => false
  | .slave => true

/-- The decoding procedure of R75. It is total: every 11-bit value selects exactly one operation (R65). -/
def decode (c : Command) : Instr :=
  if c.word.op = 0b00 then
    if c.word.bit8 then .ingestAddr (c.word.extractLsb' 4 4) (c.word.extractLsb' 0 4)
    else .ingestData c.word.low
  else if c.word.op = 0b01 then .assemble
  else if c.word.op = 0b10 then .send c.payload
  else .reset (Role.ofBit c.word.bit8) c.word.low

/-- Why a number is not a command word. -/
inductive DecodeError where
  /-- It does not fit the 11 bits of R65. Raised by `readCommandWord`; safe. -/
  | notElevenBits (w : Nat)
  deriving DecidableEq, Repr

/-- A number read as a command word; a number with a bit above bit 10 is rejected by name. -/
def readCommandWord (w : Nat) : Except DecodeError CommandWord :=
  if w < 2 ^ 11 then .ok (BitVec.ofNat 11 w) else .error (.notElevenBits w)

/-- The instruction of a row of spec/opcode_table.json whose bits are `w`. The table gives SEND's payload no
bits, so it is empty here. -/
def decodeTableWord (_nbits w : Nat) : Option Instr :=
  match readCommandWord w with
  | .ok c => some (decode { word := c, payload := [] })
  | .error _ => none

/-- The command of an instruction, from the patterns of R65; ignored `arg` bits are zero, as in R74. -/
def encode : Instr → Command
  | .ingestAddr addr rsv => { word := 0b00#2 ++ 1#1 ++ addr ++ rsv, payload := [] }
  | .ingestData data => { word := 0b00#2 ++ 0#1 ++ data, payload := [] }
  | .assemble => { word := 0b01#2 ++ 0#9, payload := [] }
  | .send payload => { word := 0b10#2 ++ 0#9, payload := payload }
  | .reset role own => { word := 0b11#2 ++ BitVec.ofBool role.bit ++ own, payload := [] }

/-- The unit as its nine bits: the marker at bit 8, the data at bits 7:0 (R60). Log 9. -/
def WireUnit.bits (u : WireUnit) : BitVec 9 := BitVec.ofBool u.marker ++ u.data

/-- Nine bits read as a unit (R60). -/
def WireUnit.ofBits (b : BitVec 9) : WireUnit := { marker := b.getLsbD 8, data := b.extractLsb' 0 8 }

/-- The command that applies an INGEST of a unit: `op = 00` and `arg` the unit (R65, R74). -/
def WireUnit.command (u : WireUnit) : Command := { word := 0b00#2 ++ u.bits, payload := [] }

/-- The operation an INGEST of a unit is: its marker selects it (R123). -/
def WireUnit.instr (u : WireUnit) : Instr := decode u.command

end Sys2Proof
end

