-- ==== Sys2Proof/Machine/State.lean ====
section
/-! DEFINITION. The state of one instance of the framing block (spec/10_state.md R20 to R35), what its operations
hand back (spec/30_encoding.md R68 to R70), the conditions of spec/60_exceptions.md R161, and the reset state. -/

namespace Sys2Proof.Machine

/-- The response output of an INGEST (R25, R68). -/
inductive Response where
  /-- `NONE`: nothing is output. -/
  | noResponse
  /-- `ACK`: a complete frame is in the buffer and its checksum matches its payload. -/
  | ack
  /-- `NACK`: the checksum does not match, or the buffer overflowed. -/
  | nack
  deriving DecidableEq, Repr

/-- The Frame object ASSEMBLE returns, its stored fields (R69). -/
structure Frame where
  address : Byte
  payload : List Byte
  checksum : Word16
  deriving DecidableEq, Repr

/-- The result of SEND (R70). -/
inductive SendResult where
  | ok (units : List WireUnit)
  | payloadTooLarge (n : Nat)
  deriving DecidableEq, Repr

/-- The result of RESET (R70, R191). -/
inductive ResetResult where
  | done
  | refused
  deriving DecidableEq, Repr

/-- The result an operation hands back to the environment, by operation (R22, R25, R70). -/
inductive Result where
  | response (r : Response)
  | assembled (frame : Option Frame)
  | sent (r : SendResult)
  | resetAnswer (r : ResetResult)
  deriving DecidableEq, Repr

/-- The conditions of R161, complete, each with the value it records. -/
inductive Condition where
  | bufferExhausted
  | incomplete
  | checksumMismatch
  | payloadTooLarge (n : Nat)
  | addressMismatch (r : Byte)
  | malformed
  deriving DecidableEq, Repr

/-- What one operation outputs: its result, and the condition that arose in it, of which there is at most one
(R170). -/
structure Output where
  result : Result
  condition : Option Condition
  deriving DecidableEq, Repr

/-- Why a step stops. Neither is reachable from a state that meets the invariant of Safety.lean (R160). -/
inductive Fault where
  /-- A read of `BUF[i]` with `i` outside the address space `0` to `CAP-1` (R40). Raised by `State.bufRead`;
  safe. -/
  | outsideBuffer (index : Nat)
  /-- A read of `BUF[i]` where nothing is held (R21: the byte has no specified value). Raised by
  `State.bufRead`; safe. -/
  | unwrittenByte (index : Nat)
  deriving DecidableEq, Repr

/-- Why an instruction is refused. -/
inductive Refusal where
  /-- The instruction has no meaning in the model yet. Raised by an arm of `exec` only; safe. -/
  | notModelled (mnemonic : String)
  /-- An operation other than RESET before the first successful RESET, to which R193 gives no meaning
  ("refuse"). Raised by `State.whenConstructed`; safe. -/
  | notConstructed
  deriving DecidableEq, Repr

/-- The state of one instance. `role`, `ownAddr`, `len` and `buf` are the tuple of R20; the rest is said field
by field. -/
structure State where
  /-- The open parameters of R7, carried so that every claim is for every value of them. -/
  params : Params
  /-- A successful RESET has been applied; before it the state is undefined (R193). -/
  constructed : Bool
  /-- `ROLE` (R27). -/
  role : Role
  /-- `OWN_ADDR` (R28). -/
  ownAddr : Byte
  /-- `LEN`, the length cursor (R33). -/
  len : Nat
  /-- `BUF` (R31, R40): the bytes held, by index, rising. -/
  buf : List Host.Cell
  /-- The model's own: the operations the environment has yet to apply, first to last (R56). Log 4. -/
  port : List Command
  /-- The model's own: what the operation just ended handed back; no operation reads it (R22). Log 5. -/
  output : Option Output
  deriving DecidableEq, Repr

/-- The launch state of R35 and R193: the state right after a successful RESET with this role and address, the
buffer idle, no response held. -/
def State.launch (p : Params) (role : Role) (own : Byte) : State where
  params := p
  constructed := true
  role := role
  ownAddr := own
  len := 0
  buf := []
  port := []
  output := none

/-- The machine right after reset: the launch state of `RESET(S,01)`, the first operation of the spec's
scenarios, with the reference parameters. R35 gives `LEN = 0` and no response held; role, address and parameters
are DESIGN CHOICE, unsafe: logs 1, 2. -/
def State.reset : State := State.launch Config.referenceParams .slave 0x01

end Sys2Proof.Machine
end

