-- ==== Sys2Proof/Machine/Ops.lean ====
section
/-! DEFINITION. The named operations on the state: the buffer as memory and its four primitives (spec/20_memory.md R40 to
R45), what every operation shares at its start (R193) and at its end (R10 `return`, `resp`, `signal`). -/

namespace Sys2Proof.Machine

/-- One outcome of an operation on this machine. -/
abbrev Answer := Host.Outcome State Fault Refusal

/-! ## Memory: a list of cells with rising addresses -/

/-- What an unlisted address reads as: no value, since R21 leaves such a byte unspecified. Log 7. -/
def Memory.unlisted : Option Byte := none

/-- The canonical form: addresses strictly rising, and no entry equal to what an unlisted address reads as. -/
abbrev Memory.wf (m : List Host.Cell) : Prop :=
  m.Pairwise (fun c d => c.1 < d.1) ∧ ∀ c ∈ m, some c.2 ≠ Memory.unlisted

/-- The byte at an address. -/
def Memory.read : List Host.Cell → Nat → Option Byte
  | [], _ => Memory.unlisted
  | (k, b) :: m, a => if k = a then some b else Memory.read m a

/-- The memory with one byte written, the canonical form kept. -/
def Memory.write : List Host.Cell → Nat → Byte → List Host.Cell
  | [], a, b => [(a, b)]
  | (k, c) :: m, a, b =>
    if a < k then (a, b) :: (k, c) :: m
    else if a = k then (a, b) :: m
    else (k, c) :: Memory.write m a b

/-- The memory that holds exactly these bytes, from this address up. -/
def Memory.ofBytes : Nat → List Byte → List Host.Cell
  | _, [] => []
  | a, b :: bs => (a, b) :: Memory.ofBytes (a + 1) bs

/-! ## The buffer -/

/-- `BUF[i]` (R10, R40): a read outside the address space, or of a byte nothing is held at, has no value. -/
def State.bufRead (s : State) (i : Nat) : Except Fault Byte :=
  if s.params.cap ≤ i then .error (.outsideBuffer i)
  else match Memory.read s.buf i with
    | some b => .ok b
    | none => .error (.unwrittenByte i)

/-- `BUF[i], …, BUF[i+n-1]`. -/
def State.bufReadMany (s : State) : Nat → Nat → Except Fault (List Byte)
  | _, 0 => .ok []
  | i, n + 1 =>
    match s.bufRead i with
    | .error f => .error f
    | .ok b =>
      match s.bufReadMany (i + 1) n with
      | .error f => .error f
      | .ok bs => .ok (b :: bs)

/-- `view()` (R44): the bytes `BUF[0..LEN)`. -/
def State.view (s : State) : Except Fault (List Byte) := s.bufReadMany 0 s.len

/-- `clear()` (R41). The bytes held become unspecified (R21), so none is listed. Log 7. -/
def State.clear (s : State) : State := { s with len := 0, buf := [] }

/-- The write of a push that fits (R42): `BUF[LEN] <- b; LEN <- LEN + 1`. -/
def State.append (s : State) (b : Byte) : State :=
  { s with len := s.len + 1, buf := Memory.write s.buf s.len b }

/-- `push(b)` (R42): `none` is `full`. The test `LEN = CAP` is written `CAP ≤ LEN`, the same where
`LEN ≤ CAP` (R33), so that no state lets the write leave the address space. Log 6. -/
def State.push (s : State) (b : Byte) : Option State :=
  if s.params.cap ≤ s.len then none else some (s.append b)

/-- `replace(s)` (R43). The bytes at and above the new `LEN` become unspecified (R21, D28). -/
def State.replace (s : State) (bytes : List Byte) : State :=
  { s with len := bytes.length, buf := Memory.ofBytes 0 bytes }

/-- The push of an address word's byte, which follows a `clear()`, with the retry of R133: on `full`, clear and
push once more. -/
def State.pushAfterClear (s : State) (b : Byte) : State :=
  match s.clear.push b with
  | some t => t
  | none =>
    match s.clear.clear.push b with
    | some t => t
    | none => s.clear.clear

/-! ## Configuration, start and end of an operation -/

/-- The writes of a successful RESET (R190) but for `clear()`. -/
def State.configure (s : State) (role : Role) (own : Byte) : State :=
  { s with constructed := true, role := role, ownAddr := own }

/-- The commands left at the port. -/
def State.withPort (s : State) (cs : List Command) : State := { s with port := cs }

/-- The output port holds what this operation handed back (R22). -/
def State.withOutput (s : State) (result : Result) (condition : Option Condition) : State :=
  { s with output := some { result := result, condition := condition } }

/-- The end of an operation, the one place where a result is returned and a condition signalled (R10): a
condition transfers control nowhere, saves nothing and leaves an ordinary state (R160, R168). -/
def State.finish (s : State) (result : Result) (condition : Option Condition) : Answer :=
  .next (s.withOutput result condition)

/-- Every operation but RESET: before the first successful RESET it has no meaning (R193). -/
def State.whenConstructed (s : State) (k : Answer) : Answer :=
  if s.constructed then k else .refused .notConstructed

/-- An operation that reads the buffer whole, through `view()`. -/
def State.withView (s : State) (k : List Byte → Answer) : Answer :=
  match s.view with
  | .ok bytes => k bytes
  | .error f => .fault f

end Sys2Proof.Machine
end

