-- ==== Sys2Proof/Machine/Operands.lean ====
section
/-! DEFINITION. How operands and decoded values are put together from bits (spec/30_encoding.md R71), and the address
match (spec/42_ingest.md R120). -/

namespace Sys2Proof.Machine

/-- The received address `r = zext_8(u[7:4])` of an address word (R61, R71). -/
def receivedAddress (addr : Nibble) : Byte := addr.setWidth 8

/-- The address byte `u[7:0]` of an address word, both nibbles as received (R61, R63). -/
def addressByte (addr rsv : Nibble) : Byte := addr ++ rsv

/-- The address value of an address byte: its upper nibble, zero-extended (R71, R101). -/
def addressOfByte (b : Byte) : Byte := (b.extractLsb' 4 4).setWidth 8

/-- The checksum from its two bytes, low byte first (R50, R71). -/
def checksumOf (lo hi : Byte) : Word16 := lo.setWidth 16 ||| (hi.setWidth 16 <<< 8)

/-- `k[7:0]`: the checksum byte that is sent and stored first (R50). -/
def lowByte (k : Word16) : Byte := k.extractLsb' 0 8

/-- `k[15:8]`: the checksum byte that is sent and stored second (R50). -/
def highByte (k : Word16) : Byte := k.extractLsb' 8 8

/-- The address byte SEND builds: `OWN_ADDR[3:0]` in the upper nibble, the reserved nibble zero (R71, R151). -/
def sentAddressByte (own : Byte) : Byte := own.extractLsb' 0 4 ++ 0#4

/-- The length byte SEND builds, `n[7:0]` (R71). -/
def lengthByte (n : Nat) : Byte := BitVec.ofNat 8 n

/-- `match(r)` of a node whose own address is `own` (R120): the subset clause or the broadcast clause. -/
def addressMatch (own r : Byte) : Bool := own &&& r == own || r == Config.broadcast

end Sys2Proof.Machine
end

