-- ==== Sys2Proof/Machine/Crc.lean ====
section
/-! DEFINITION. The CRC-16/USB function and the checksum validator (spec/40_crc.md R90 to R94). The function's parameters
are the spec's from general knowledge: log 12. -/

namespace Sys2Proof.Machine

/-- One of the eight shifts of a byte step (R91). -/
def crcShift (c : Word16) : Word16 :=
  if c.getLsbD 0 then (c >>> 1) ^^^ 0xA001 else c >>> 1

/-- `n` shifts. -/
def crcShifts : Nat → Word16 → Word16
  | 0, c => c
  | n + 1, c => crcShifts n (crcShift c)

/-- `crc_step(c, b)` (R91): the byte into the low eight bits, then eight shifts. -/
def crcStep (c : Word16) (b : Byte) : Word16 := crcShifts 8 (c ^^^ b.setWidth 16)

/-- The register after the bytes, in order of increasing index: `fold(crc_step, c, s)` (R91). -/
def crcFold (c : Word16) (bytes : List Byte) : Word16 := bytes.foldl crcStep c

/-- `crc16_usb(s)` (R90). -/
def crc16usb (bytes : List Byte) : Word16 := crcFold 0xFFFF bytes ^^^ 0xFFFF

/-- `check(payload, checksum)` (R93): the payload bytes alone are covered (R92). -/
def crcCheck (payload : List Byte) (checksum : Word16) : Bool := checksum == crc16usb payload

/-- The table form of `crc_step` (R91), given there as a check of an implementation. -/
def crcStepByTable (c : Word16) (b : Byte) : Word16 :=
  (c >>> 8) ^^^ crcStep 0x0000 (lowByte (c ^^^ b.setWidth 16))

end Sys2Proof.Machine
end

