-- ==== Sys2Proof/Machine/Parser.lean ====
section
/-! DEFINITION. The parser: the eight functions that find the fields of a frame image in a byte sequence
(spec/41_parser.md R100 to R110). They read a sequence and write nothing. -/

namespace Sys2Proof.Machine

/-- The outcomes of a parser function (R100): `incomplete` is "not enough bytes yet" and is no error. -/
inductive Parsed (α : Type) where
  | ok (value : α)
  | incomplete
  | malformed
  deriving DecidableEq, Repr

/-- Every function that calls another hands `incomplete` (and `malformed`) on unchanged (R109). -/
def Parsed.bind {α β : Type} (p : Parsed α) (k : α → Parsed β) : Parsed β :=
  match p with
  | .ok v => k v
  | .incomplete => .incomplete
  | .malformed => .malformed

/-- What `parse_frame` finds: the fields and the bytes after the image (R106). -/
structure ParsedFrame where
  address : Byte
  payload : List Byte
  checksum : Word16
  remainder : List Byte
  deriving DecidableEq, Repr

/-- `read_address(s)` (R101). -/
def readAddress : List Byte → Parsed (Byte × List Byte)
  | [] => .incomplete
  | b :: rest => .ok (addressOfByte b, rest)

/-- `read_length(s)` (R102): the byte verbatim, no range check. -/
def readLength : List Byte → Parsed (Byte × List Byte)
  | [] => .incomplete
  | b :: rest => .ok (b, rest)

/-- `read_payload(s, length)` (R103). -/
def readPayload (bytes : List Byte) (length : Nat) : Parsed (List Byte × List Byte) :=
  if bytes.length < length then .incomplete
  else .ok (bytes.take length, bytes.drop length)

/-- `read_checksum(s)` (R104): two bytes, little-endian; one byte alone is not consumed. -/
def readChecksum : List Byte → Parsed (Word16 × List Byte)
  | lo :: hi :: rest => .ok (checksumOf lo hi, rest)
  | _ => .incomplete

/-- `parse_header_fields(s)` (R105): specified, and called by no operation. -/
def parseHeaderFields (bytes : List Byte) : Parsed (Byte × Byte) :=
  (readAddress bytes).bind fun addressPart =>
  (readLength addressPart.2).bind fun lengthPart =>
  .ok (addressPart.1, lengthPart.1)

/-- `parse_frame(s)` (R106): the fields in their order, the length range checked as soon as the length byte is
there (R110). The checksum is not compared. -/
def parseFrame (bytes : List Byte) : Parsed ParsedFrame :=
  (readAddress bytes).bind fun addressPart =>
  (readLength addressPart.2).bind fun lengthPart =>
  if lengthPart.1 = Config.rejectedLength then .malformed
  else
    (readPayload lengthPart.2 lengthPart.1.toNat).bind fun payloadPart =>
    (readChecksum payloadPart.2).bind fun checksumPart =>
    .ok { address := addressPart.1, payload := payloadPart.1,
          checksum := checksumPart.1, remainder := checksumPart.2 }

/-- `parse_frame_borrowed(s)` (R107): the decode of the fast path; the view of the payload it returns is not
told apart from a copy (90_conflicts.md C5). -/
def parseFrameBorrowed (bytes : List Byte) : Parsed ParsedFrame := parseFrame bytes

/-- `parse_frame_owned(s)` (R108): the same decode with its first three results packed into a Frame. -/
def parseFrameOwned (bytes : List Byte) : Parsed (Frame × List Byte) :=
  (parseFrame bytes).bind fun p =>
  .ok ({ address := p.address, payload := p.payload, checksum := p.checksum }, p.remainder)

end Sys2Proof.Machine
end

