-- ==== Sys2Proof/Machine/Flags.lean ====
section
/-! DEFINITION. The condition outputs of the block: responses and their images (spec/10_state.md R25, spec/30_encoding.md
R68), the derived attributes of a Frame (R69), the derived status of the state (R24, R26), and the answer of the
fast path (spec/42_ingest.md R126). None of them is stored. -/

namespace Sys2Proof.Machine

/-- The bytes a response puts out, byte 0 first; `NONE` has no image (R68). -/
def Response.image : Response → List Byte
  | .noResponse => []
  | .ack => Config.ackCode
  | .nack => Config.nackCode

/-- The derived `length` of a Frame (R69). -/
def Frame.length (f : Frame) : Nat := f.payload.length

/-- The derived `broadcast` of a Frame (R69). Log 11. -/
def Frame.broadcast (f : Frame) : Bool := f.address == Config.broadcast

/-- The derived `valid` of a Frame (R69, R93). -/
def Frame.valid (f : Frame) : Bool := crcCheck f.payload f.checksum

/-- `idle` (R26). -/
def State.idle (s : State) : Bool := s.len == 0

/-- `in_progress` (R26). -/
def State.inProgress (s : State) : Bool := 0 < s.len

/-- `full` (R26). -/
def State.full (s : State) : Bool := s.len == s.params.cap

/-- The phase of R24: where in a frame the block is. -/
inductive Phase where
  | idle
  | haveAddr
  | badLen
  | payload
  | checksum
  | complete
  deriving DecidableEq, Repr

/-- `phase()` as a function of the bytes held (R24): their number and the one at index 1. -/
def phaseOf : List Byte → Phase
  | [] => .idle
  | [_] => .haveAddr
  | _ :: length :: rest =>
    if length = Config.rejectedLength then .badLen
    else if rest.length < length.toNat then .payload
    else if rest.length < length.toNat + 2 then .checksum
    else .complete

/-- `phase()` of a state (R24). -/
def State.phase (s : State) : Except Fault Phase := s.view.map phaseOf

/-- The response of a Slave to the parse it makes after an append (R126 step 2b). -/
def fastResponse : Parsed ParsedFrame → Response
  | .ok p => if crcCheck p.payload p.checksum then .ack else .nack
  | .incomplete => .noResponse
  | .malformed => .noResponse

/-- The condition that arises in the same place (R126, R161). Log 14. -/
def fastCondition : Parsed ParsedFrame → Option Condition
  | .ok p => if crcCheck p.payload p.checksum then none else some .checksumMismatch
  | .incomplete => some .incomplete
  | .malformed => some .malformed

/-- The response to an append that failed: `NACK` from a Slave, nothing from a Master (R127). -/
def overflowResponse : Role → Response
  | .slave => .nack
  | .master => .noResponse

end Sys2Proof.Machine
end

