-- ==== Sys2Proof/Machine/Assemble.lean ====
section
/-! DEFINITION. The slow path: ASSEMBLE (spec/43_assemble.md R140 to R146). -/

namespace Sys2Proof.Machine

/-- ASSEMBLE (R140): the frame image at the front of the buffer is returned as a Frame, whatever its checksum or
address (R141), and the remainder moves to index 0 (R143). Otherwise nothing is returned and the state is unchanged
(R142). -/
def execAssemble (s : State) : Answer :=
  s.whenConstructed <|
    s.withView fun bytes =>
      match parseFrameOwned bytes with
      | .ok (frame, remainder) => (s.replace remainder).finish (.assembled (some frame)) none
      | .incomplete => s.finish (.assembled none) (some .incomplete)
      | .malformed => s.finish (.assembled none) (some .malformed)

end Sys2Proof.Machine
end

