-- ==== Sys2Proof/Machine/Ingest.lean ====
section
/-! DEFINITION. The fast path: INGEST.ADDR and INGEST.DATA (spec/42_ingest.md R120 to R133). -/

namespace Sys2Proof.Machine

/-- INGEST.ADDR (R125): every address word clears the buffer; a matching one then leaves exactly its own byte.
The role is not consulted and the response is always `NONE`. -/
def execIngestAddr (addr rsv : Nibble) (s : State) : Answer :=
  s.whenConstructed <|
    if addressMatch s.ownAddr (receivedAddress addr) then
      (s.pushAfterClear (addressByte addr rsv)).finish (.response .noResponse) none
    else
      s.clear.finish (.response .noResponse) (some (.addressMismatch (receivedAddress addr)))

/-- INGEST.DATA (R126): dropped when idle; on overflow the buffer is cleared and the word is lost (R127);
otherwise appended, and a Slave parses the buffer and answers (R128, R129). A Master never answers (R131). -/
def execIngestData (data : Byte) (s : State) : Answer :=
  s.whenConstructed <|
    if s.len = 0 then s.finish (.response .noResponse) none
    else
      match s.push data with
      | none => s.clear.finish (.response (overflowResponse s.role)) (some .bufferExhausted)
      | some t =>
        match s.role with
        | .master => t.finish (.response .noResponse) none
        | .slave =>
          t.withView fun bytes =>
            t.finish (.response (fastResponse (parseFrameBorrowed bytes)))
              (fastCondition (parseFrameBorrowed bytes))

end Sys2Proof.Machine
end

