-- ==== Sys2Proof/Machine/Reset.lean ====
section
/-! DEFINITION. Construction: RESET (spec/70_reset_and_hazards.md R190 to R193). -/

namespace Sys2Proof.Machine

/-- The own address a RESET installs (R190): a Master takes `MASTER_ADDR`, a Slave its operand. -/
def installedAddress (p : Params) (role : Role) (own : Byte) : Byte :=
  match role with
  | .master => p.masterAddr
  | .slave => own

/-- The RESETs that are refused (R191): a Slave address that does not fit four bits. -/
def resetRefused (role : Role) (own : Byte) : Bool :=
  role == .slave && !legalAddress own

/-- RESET (R190): applied at any time (R192), constructed or not (R193); when refused it changes nothing
(R191). -/
def execReset (role : Role) (own : Byte) (s : State) : Answer :=
  if resetRefused role own then s.finish (.resetAnswer .refused) none
  else (s.configure role (installedAddress s.params role own)).clear.finish (.resetAnswer .done) none

end Sys2Proof.Machine
end

