-- ==== Sys2Proof/Machine/Send.lean ====
section
/-! DEFINITION. Outbound framing: SEND (spec/44_send.md R150 to R155). -/

namespace Sys2Proof.Machine

/-- A data word (R60, R62). -/
def dataUnit (b : Byte) : WireUnit := { marker := false, data := b }

/-- The bytes of a frame image (R46). -/
def frameImage (first : Byte) (payload : List Byte) (checksum : Word16) : List Byte :=
  first :: lengthByte payload.length :: (payload ++ [lowByte checksum, highByte checksum])

/-- The units of a frame on the wire (R64): one address word, then data words only. -/
def frameUnits (first : Byte) (payload : List Byte) (checksum : Word16) : List WireUnit :=
  { marker := true, data := first } ::
    dataUnit (lengthByte payload.length) ::
      (payload.map dataUnit ++ [dataUnit (lowByte checksum), dataUnit (highByte checksum)])

/-- The units SEND returns for a payload it accepts (R150): this node's own address, the checksum over the
payload. -/
def sendUnits (own : Byte) (payload : List Byte) : List WireUnit :=
  frameUnits (sentAddressByte own) payload (crc16usb payload)

/-- SEND (R150): the length test comes before everything (R170); a payload of 254 bytes or more is rejected with
its length and no unit (R152). No state is written. -/
def execSend (payload : List Byte) (s : State) : Answer :=
  s.whenConstructed <|
    if Config.maxTxLen < payload.length then
      s.finish (.sent (.payloadTooLarge payload.length)) (some (.payloadTooLarge payload.length))
    else
      s.finish (.sent (.ok (sendUnits s.ownAddr payload))) none

end Sys2Proof.Machine
end

