-- ==== Sys2Proof/Machine/Dispatch.lean ====
section
/-! DEFINITION. One arm per operation (spec/00_scope.md R6). -/

namespace Sys2Proof.Machine

def exec (i : Instr) (s : State) : Host.Outcome State Fault Refusal :=
  match i with
  | .ingestAddr addr rsv => Sys2Proof.Machine.execIngestAddr addr rsv s
  | .ingestData data => Sys2Proof.Machine.execIngestData data s
  | .assemble => Sys2Proof.Machine.execAssemble s
  | .send payload => Sys2Proof.Machine.execSend payload s
  | .reset role own => Sys2Proof.Machine.execReset role own s

end Sys2Proof.Machine
end

