-- ==== Sys2Proof/Machine/Step.lean ====
section
/-! DEFINITION. One step: the next command at the port is taken, decoded and run (spec/00_scope.md R11, spec/20_memory.md
R56). The block has no program counter and fetches no program (R24, R58). -/

namespace Sys2Proof.Machine

/-- One operation application (R11). With nothing at the port no operation is applied and nothing changes: the
block waits for the environment, and no rule depends on time (R210). Log 4. -/
def step (s : State) : Host.Outcome State Fault Refusal :=
  match s.port with
  | [] => .next s
  | c :: rest => exec (decode c) (s.withPort rest)

/-- The environment presents this command word, with an empty payload beside it, as the next operation. A number
that is no command word cannot be presented. -/
def State.withFetchWord (s : State) (_nbits w : Nat) : State :=
  match readCommandWord w with
  | .ok c => s.withPort ({ word := c, payload := [] } :: s.port)
  | .error _ => s

end Sys2Proof.Machine
end

