-- ==== Sys2Proof/Machine/Bus.lean ====
section
/-! DEFINITION. Sequences of operations on one instance, and several instances on one bus (spec/60_exceptions.md R174):
each node holds one instance, instances share no state, and every unit on the wire is applied as an INGEST to every
listening instance in the same order. -/

namespace Sys2Proof.Machine

/-- The operations applied in order (R56), with what each one handed back, in order. -/
def execAll : List Instr → State → Host.Outcome (State × List (Option Output)) Fault Refusal
  | [], s => .next (s, [])
  | i :: is, s =>
    match exec i s with
    | .next t =>
      match execAll is t with
      | .next (u, outs) => .next (u, t.output :: outs)
      | .fault f => .fault f
      | .refused r => .refused r
    | .fault f => .fault f
    | .refused r => .refused r

/-- The units of the wire applied to one instance, each as its INGEST (R174). -/
def ingestUnits (units : List WireUnit) (s : State) :
    Host.Outcome (State × List (Option Output)) Fault Refusal :=
  execAll (units.map WireUnit.instr) s

/-- One unit put on the bus: an INGEST at every listening instance (R174). -/
def Bus.deliver (u : WireUnit) (nodes : List State) : List Answer :=
  nodes.map (exec u.instr)

/-- A sequence of units put on the bus, all nodes hearing them in the same order (R174). -/
def Bus.carry (units : List WireUnit) (nodes : List State) :
    List (Host.Outcome (State × List (Option Output)) Fault Refusal) :=
  nodes.map (ingestUnits units)

end Sys2Proof.Machine
end

