-- ==== Sys2Proof/Safety.lean ====
section
/-! DEFINITION. What counts as a good state and a safe run, in the terms the statements use. -/

namespace Sys2Proof.Machine

/-- The configuration of a constructed node is legal (R28): its address fits four bits, and a Master's is
`MASTER_ADDR`. -/
abbrev State.configOk (s : State) : Prop :=
  s.constructed = true →
    legalAddress s.ownAddr = true ∧ (s.role = .master → s.ownAddr = s.params.masterAddr)

/-- The buffer is as R33 and R21 say: `LEN ≤ CAP`, and the bytes held are exactly those at `0` to `LEN-1`. -/
abbrev State.bufferOk (s : State) : Prop :=
  s.len ≤ s.params.cap ∧ s.buf.map Prod.fst = List.range s.len

/-- The invariant of every reachable state (R7, R28, R33). -/
abbrev State.Inv (s : State) : Prop :=
  s.params.wellFormed = true ∧ s.configOk ∧ s.bufferOk

/-- The buffer holds exactly these bytes: `view()` is `bytes`, and they fit (R21, R33, R44). -/
abbrev State.Holds (s : State) (bytes : List Byte) : Prop :=
  s.buf = Memory.ofBytes 0 bytes ∧ s.len = bytes.length ∧ bytes.length ≤ s.params.cap

/-- The answer is a next state; `none` for a fault or a refusal. -/
def nextState : Answer → Option State
  | .next s => some s
  | .fault _ => none
  | .refused _ => none

/-- The response an output carries; `none` for an output that is no response. -/
def Output.response : Option Output → Option Response
  | some { result := .response r, condition := _ } => some r
  | _ => none

end Sys2Proof.Machine
end

