-- ==== Sys2Proof/Certificates/Slice0/Obligations.lean ====
section
/-! DEFINITION. The statements for the provers. "Log n" is notes/assumptions/n.md. Wherever a state is written out
with an `output`, that field is the model's own (log 5); a `condition` left to an existential is one the spec's
pseudocode does not signal (log 14). -/

open Sys2Proof Sys2Proof.Machine

/-! ## Encoding and the step -/

/-- R65, R66, R67, R75: no bit of an operand is lost between an instruction and its command. -/
def Obligations.DecodeInvertsEncode : Prop :=
  ∀ i : Instr, decode (encode i) = i

/-- R75, the decoding procedure, with the fields of a command word read as numbers. -/
def Obligations.DecodeFollowsTheProcedure : Prop :=
  ∀ c : Command,
    (c.word.toNat / 512 = 0 ∧ c.word.toNat / 256 % 2 = 1 →
      ∃ addr rsv, decode c = .ingestAddr addr rsv ∧
        receivedAddress addr = BitVec.ofNat 8 (c.word.toNat / 16 % 16) ∧
        addressByte addr rsv = BitVec.ofNat 8 c.word.toNat) ∧
    (c.word.toNat / 512 = 0 ∧ c.word.toNat / 256 % 2 = 0 →
      decode c = .ingestData (BitVec.ofNat 8 c.word.toNat)) ∧
    (c.word.toNat / 512 = 1 → decode c = .assemble) ∧
    (c.word.toNat / 512 = 2 → decode c = .send c.payload) ∧
    (c.word.toNat / 512 = 3 →
      decode c = .reset (if c.word.toNat / 256 % 2 = 1 then .slave else .master)
        (BitVec.ofNat 8 c.word.toNat))

/-- R65, R74: what the encoder gives back of a command word. INGEST and RESET use every bit; the nine `arg` bits
of ASSEMBLE and SEND are ignored. -/
def Obligations.EncodeGivesBackEveryUsedBit : Prop :=
  ∀ (w : CommandWord) (payload : List Byte),
    (w.toNat / 512 = 0 ∨ w.toNat / 512 = 3 →
      encode (decode { word := w, payload := payload }) = { word := w, payload := [] }) ∧
    (w.toNat / 512 = 1 →
      encode (decode { word := w, payload := payload }) = { word := 0x200, payload := [] }) ∧
    (w.toNat / 512 = 2 →
      encode (decode { word := w, payload := payload }) = { word := 0x400, payload := payload })

/-- R74 and the programs of 95_test_vectors.md: command words and the operations they name. -/
def Obligations.CommandWordsOfTheSpecDecode : Prop :=
  decodeTableWord 16 0x701 = some (.reset .slave 0x01) ∧
  decodeTableWord 16 0x110 = some (.ingestAddr 0x1 0x0) ∧
  decodeTableWord 16 0x0FF = some (.ingestData 0xFF) ∧
  decodeTableWord 16 0x200 = some .assemble ∧
  decodeTableWord 16 0x400 = some (.send []) ∧
  decodeTableWord 16 0x6AB = some (.reset .master 0xAB)

/-- R60, R64, R123: the packing of a unit loses nothing, bit 8 is the marker, and the marker selects the INGEST. -/
def Obligations.UnitSelectsItsIngest : Prop :=
  ∀ u : WireUnit,
    WireUnit.ofBits u.bits = u ∧
    u.bits.toNat = (if u.marker then 256 else 0) + u.data.toNat ∧
    u.instr = (if u.marker then .ingestAddr (u.data.extractLsb' 4 4) (u.data.extractLsb' 0 4)
      else .ingestData u.data)

/-- R11, R56: a step applies the next operation of the environment to the state. That an empty port leaves the
state as it is, is the model's choice (log 4). -/
def Obligations.StepRunsTheNextCommand : Prop :=
  ∀ s : State,
    (∀ c rest, s.port = c :: rest → step s = exec (decode c) { s with port := rest }) ∧
    (s.port = [] → step s = .next s)

/-! ## The checksum -/

/-- R91: the byte step as eight shifts, the function as its fold, the table form and the entries printed. -/
def Obligations.CrcStepHasItsTableForm : Prop :=
  (∀ (c : Word16) (b : Byte),
    crcStep c b = (fun x : Word16 => if x &&& 1 = 1 then (x >>> 1) ^^^ 0xA001 else x >>> 1)^[8]
      (c ^^^ b.setWidth 16)) ∧
  (∀ s : List Byte, crc16usb s = s.foldl crcStep 0xFFFF ^^^ 0xFFFF) ∧
  (∀ (c : Word16) (b : Byte),
    crcStep c b = (c >>> 8) ^^^ crcStep 0x0000 ((c ^^^ b.setWidth 16).setWidth 8)) ∧
  (List.range 16).map (fun k => crcStep 0x0000 (BitVec.ofNat 8 k)) =
    [0x0000, 0xC0C1, 0xC181, 0x0140, 0xC301, 0x03C0, 0x0280, 0xC241,
      0xC601, 0x06C0, 0x0780, 0xC741, 0x0500, 0xC5C1, 0xC481, 0x0440] ∧
  crcStep 0x0000 0x80 = 0xA001 ∧ crcStep 0x0000 0xFF = 0x4040

/-- R96: the two worked examples, shift by shift, and their checksum bytes. -/
def Obligations.CrcWorkedExamples : Prop :=
  (List.range 9).map (fun n => crcShifts n (0xFFFF ^^^ 0x00FF)) =
    [0xFF00, 0x7F80, 0x3FC0, 0x1FE0, 0x0FF0, 0x07F8, 0x03FC, 0x01FE, 0x00FF] ∧
  crc16usb [0xFF] = 0xFF00 ∧ lowByte (crc16usb [0xFF]) = 0x00 ∧ highByte (crc16usb [0xFF]) = 0xFF ∧
  (List.range 9).map (fun n => crcShifts n (0xFFFF ^^^ 0x0001)) =
    [0xFFFE, 0x7FFF, 0x9FFE, 0x4FFF, 0x87FE, 0x43FF, 0x81FE, 0x40FF, 0x807E] ∧
  crc16usb [0x01] = 0x7F81 ∧ lowByte (crc16usb [0x01]) = 0x81 ∧ highByte (crc16usb [0x01]) = 0x7F

/-- R94, R95: a streaming validator agrees with `check`: running the two checksum bytes through the byte step as
well ends at one constant exactly when they are the checksum. R90 makes the register `0xB001` there and the
function `0x4FFE`; R95 prints the two exchanged (log 21). -/
def Obligations.StreamingValidatorAgreesWithCheck : Prop :=
  ∀ (payload : List Byte) (lo hi : Byte),
    (crcFold 0xFFFF (payload ++ [lo, hi]) = 0xB001 ↔ crcCheck payload (checksumOf lo hi) = true) ∧
    crc16usb (payload ++ [lowByte (crc16usb payload), highByte (crc16usb payload)]) = 0x4FFE

/-- The residue law as R95 and V2.17 print it, the two constants exchanged against what R90 computes: expected to
fail, with the payload `[0xFF]` of R96 as a counterexample (log 21). -/
def Obligations.ResidueLawAsPrinted : Prop :=
  ∀ payload : List Byte,
    crcFold 0xFFFF (payload ++ [lowByte (crc16usb payload), highByte (crc16usb payload)]) = 0x4FFE ∧
    crc16usb (payload ++ [lowByte (crc16usb payload), highByte (crc16usb payload)]) = 0xB001

/-- R95: every single-bit error in the payload or in the checksum turns `check` from true to false. -/
def Obligations.CheckRejectsEverySingleBitError : Prop :=
  ∀ (payload : List Byte) (k : Word16), crcCheck payload k = true →
    (∀ (before after : List Byte) (b : Byte) (j : Nat), payload = before ++ b :: after → j < 8 →
      crcCheck (before ++ (b ^^^ (1#8 <<< j)) :: after) k = false) ∧
    (∀ j : Nat, j < 16 → crcCheck payload (k ^^^ (1#16 <<< j)) = false)

/-! ## The parser -/

/-- R101 to R105: what each field function consumes, and exactly when it is incomplete. -/
def Obligations.FieldReadersConsumeTheirFields : Prop :=
  (readAddress [] = .incomplete ∧ ∀ (b : Byte) (rest : List Byte),
    readAddress (b :: rest) = .ok (BitVec.ofNat 8 (b.toNat / 16), rest)) ∧
  (readLength [] = .incomplete ∧ ∀ (b : Byte) (rest : List Byte), readLength (b :: rest) = .ok (b, rest)) ∧
  (∀ (bytes : List Byte) (n : Nat),
    (bytes.length < n → readPayload bytes n = .incomplete) ∧
    (n ≤ bytes.length → readPayload bytes n = .ok (bytes.take n, bytes.drop n))) ∧
  (∀ bytes : List Byte,
    (bytes.length < 2 → readChecksum bytes = .incomplete) ∧
    (∀ lo hi rest, bytes = lo :: hi :: rest →
      readChecksum bytes = .ok (BitVec.ofNat 16 (lo.toNat + 256 * hi.toNat), rest))) ∧
  (∀ bytes : List Byte,
    (bytes.length < 2 → parseHeaderFields bytes = .incomplete) ∧
    (∀ first length rest, bytes = first :: length :: rest →
      parseHeaderFields bytes = .ok (BitVec.ofNat 8 (first.toNat / 16), length)))

/-- R106: the three outcomes, exactly when each, and the fields an `Ok` carries. -/
def Obligations.ParseFrameOutcomes : Prop :=
  ∀ bytes : List Byte,
    (parseFrame bytes = .malformed ↔ bytes[1]? = some 0xFF) ∧
    (parseFrame bytes = .incomplete ↔
      bytes.length < 2 ∨ ∃ length : Byte, bytes[1]? = some length ∧ length ≠ 0xFF ∧
        bytes.length < 4 + length.toNat) ∧
    ((∃ p, parseFrame bytes = .ok p) ↔
      ∃ length : Byte, bytes[1]? = some length ∧ length ≠ 0xFF ∧ 4 + length.toNat ≤ bytes.length) ∧
    (∀ p, parseFrame bytes = .ok p → ∃ first length lo hi : Byte,
      bytes[0]? = some first ∧ bytes[1]? = some length ∧
      bytes[2 + length.toNat]? = some lo ∧ bytes[3 + length.toNat]? = some hi ∧
      p.address.toNat = first.toNat / 16 ∧
      p.payload = (bytes.drop 2).take length.toNat ∧ p.payload.length = length.toNat ∧
      p.checksum.toNat = lo.toNat + 256 * hi.toNat ∧
      p.remainder = bytes.drop (4 + length.toNat))

/-- R111: bytes that follow change no decode; they lengthen a remainder or complete an image. -/
def Obligations.ParseIsStableUnderExtension : Prop :=
  ∀ s t : List Byte,
    (∀ p, parseFrame s = .ok p →
      parseFrame (s ++ t) = .ok { p with remainder := p.remainder ++ t }) ∧
    (parseFrame s = .malformed → parseFrame (s ++ t) = .malformed) ∧
    (∀ length : Byte, parseFrame s = .incomplete → s[1]? = some length → length ≠ 0xFF →
      ((∃ p, parseFrame (s ++ t) = .ok p) ↔ 4 + length.toNat ≤ s.length + t.length) ∧
      (s.length + t.length < 4 + length.toNat → parseFrame (s ++ t) = .incomplete))

/-- R24: the phase from `LEN` and `BUF[1]`, and that it is `parse_frame(view())` read as a position. -/
def Obligations.PhaseIsThePositionOfTheParse : Prop :=
  ∀ (s : State) (bytes : List Byte), s.Holds bytes → ∃ phase, s.phase = .ok phase ∧
    (phase = .idle ↔ s.len = 0) ∧
    (phase = .haveAddr ↔ s.len = 1) ∧
    (phase = .badLen ↔ 2 ≤ s.len ∧ s.bufRead 1 = .ok 0xFF) ∧
    (phase = .payload ↔ ∃ l, 2 ≤ s.len ∧ s.bufRead 1 = .ok l ∧ l ≠ 0xFF ∧ s.len < 2 + l.toNat) ∧
    (phase = .checksum ↔ ∃ l, 2 ≤ s.len ∧ s.bufRead 1 = .ok l ∧ l ≠ 0xFF ∧
      2 + l.toNat ≤ s.len ∧ s.len < 4 + l.toNat) ∧
    (phase = .complete ↔ ∃ l, 2 ≤ s.len ∧ s.bufRead 1 = .ok l ∧ l ≠ 0xFF ∧ 4 + l.toNat ≤ s.len) ∧
    (parseFrame bytes = .malformed ↔ phase = .badLen) ∧
    ((∃ p, parseFrame bytes = .ok p) ↔ phase = .complete) ∧
    (parseFrame bytes = .incomplete ↔
      phase = .idle ∨ phase = .haveAddr ∨ phase = .payload ∨ phase = .checksum)

/-! ## The buffer primitives -/

/-- R41, R42, R43, R44 on a state that holds exactly a sequence of bytes. -/
def Obligations.BufferPrimitives : Prop :=
  ∀ (s : State) (bytes : List Byte), s.Holds bytes →
    (s.view = .ok bytes ∧ bytes.length = s.len ∧
      ∀ (i : Nat) (b : Byte), bytes[i]? = some b → s.bufRead i = .ok b) ∧
    (s.clear.Holds [] ∧ s.clear.len = 0) ∧
    (∀ b, s.len = s.params.cap → s.push b = none) ∧
    (∀ b, s.len < s.params.cap →
      s.push b = some { s with len := s.len + 1, buf := Memory.ofBytes 0 (bytes ++ [b]) }) ∧
    (∀ bytes' : List Byte, bytes'.length ≤ s.params.cap → (s.replace bytes').Holds bytes')

/-! ## INGEST -/

/-- R120, R121: the match of a legal node is the subset rule on four bits, whichever of the two readings
`BROADCAST` is given; of any node it is the two clauses of R120. -/
def Obligations.MatchIsTheSubsetRule : Prop :=
  (∀ own r : Byte, addressMatch own r = true ↔ own &&& r = own ∨ r = 0x0F) ∧
  (∀ (own : Byte) (addr : Nibble), own.toNat ≤ 15 →
    (receivedAddress addr).toNat ≤ 15 ∧
    (addressMatch own (receivedAddress addr) = true ↔ own.setWidth 4 &&& addr = own.setWidth 4) ∧
    (addressMatch own (receivedAddress addr) = true ↔
      own &&& receivedAddress addr = own ∨ receivedAddress addr = 0xFF))

/-- R122: how many received addresses a node matches, and which nodes `0x00` reaches. -/
def Obligations.MatchCountsItsAddresses : Prop :=
  (∀ own : Nibble,
    ((List.range 16).filter fun r => addressMatch (own.setWidth 8) (BitVec.ofNat 8 r)).length =
      2 ^ (4 - ((List.range 4).filter own.getLsbD).length)) ∧
  (∀ own : Nibble, addressMatch (own.setWidth 8) 0x00 = true ↔ own = 0) ∧
  (∀ r : Nibble, addressMatch 0x0F (r.setWidth 8) = true ↔ r = 0xF)

/-- R125, R133: INGEST.ADDR on every constructed state, every field said. It completes for every unit. -/
def Obligations.IngestAddrRestartsOrClears : Prop :=
  ∀ (s : State) (addr rsv : Nibble), s.constructed = true → 1 ≤ s.params.cap →
    exec (.ingestAddr addr rsv) s = .next
      (if s.ownAddr &&& addr.setWidth 8 = s.ownAddr ∨ addr.setWidth 8 = (0x0F : Byte) then
        { s with len := 1, buf := [(0, addr ++ rsv)],
                 output := some { result := .response .noResponse, condition := none } }
      else
        { s with len := 0, buf := [],
                 output := some { result := .response .noResponse,
                                  condition := some (.addressMismatch (addr.setWidth 8)) } })

/-- R126: INGEST.DATA on every constructed state that holds exactly a sequence of bytes, every field said. It
completes for every byte, in both roles. -/
def Obligations.IngestDataFollowsItsRule : Prop :=
  ∀ (s : State) (bytes : List Byte) (data : Byte), s.constructed = true → s.Holds bytes →
    (bytes = [] → exec (.ingestData data) s = .next
      { s with output := some { result := .response .noResponse, condition := none } }) ∧
    (bytes ≠ [] → bytes.length = s.params.cap → exec (.ingestData data) s = .next
      { s with len := 0, buf := [],
               output := some { result := .response (if s.role = .slave then .nack else .noResponse),
                                condition := some .bufferExhausted } }) ∧
    (bytes ≠ [] → bytes.length < s.params.cap → s.role = .master → exec (.ingestData data) s = .next
      { s with len := s.len + 1, buf := Memory.ofBytes 0 (bytes ++ [data]),
               output := some { result := .response .noResponse, condition := none } }) ∧
    (bytes ≠ [] → bytes.length < s.params.cap → s.role = .slave →
      ∃ response condition, exec (.ingestData data) s = .next
        { s with len := s.len + 1, buf := Memory.ofBytes 0 (bytes ++ [data]),
                 output := some { result := .response response, condition := condition } } ∧
        (∀ p, parseFrame (bytes ++ [data]) = .ok p →
          (p.checksum = crc16usb p.payload → response = .ack ∧ condition = none) ∧
          (p.checksum ≠ crc16usb p.payload → response = .nack ∧ condition = some .checksumMismatch)) ∧
        ((∀ p, parseFrame (bytes ++ [data]) ≠ .ok p) → response = .noResponse))

/-- The frame of INGEST.DATA (R126: it writes `LEN` and `BUF[LEN]` only), through the read of one byte, on any
state: where the buffer is not cleared, every byte but the one at the old `LEN` reads as before. -/
def Obligations.IngestDataWritesOneByte : Prop :=
  ∀ (s t : State) (data : Byte), exec (.ingestData data) s = .next t →
    (s.len = 0 ∨ s.len < s.params.cap →
      (∀ i, i ≠ s.len → t.bufRead i = s.bufRead i) ∧
      (s.len = 0 → t.len = 0 ∧ t.bufRead s.len = s.bufRead s.len) ∧
      (s.len ≠ 0 → t.len = s.len + 1 ∧ t.bufRead s.len = .ok data)) ∧
    (s.len ≠ 0 → s.params.cap ≤ s.len → t.len = 0)

/-- The frames of the other operations (R125, R140, R142, R150, R190, R191), through the read of one byte, on any
state: SEND, a refused RESET and an ASSEMBLE that returns nothing store nothing; an ASSEMBLE that returns a frame
leaves at each index the byte that followed the image; an address word leaves its own byte or none. -/
def Obligations.OtherOperationsStoreWhatTheirRulesSay : Prop :=
  ∀ (i : Instr) (s t : State), exec i s = .next t →
    (∀ payload, i = .send payload → t.len = s.len ∧ ∀ a, t.bufRead a = s.bufRead a) ∧
    (∀ role own, i = .reset role own →
      (role = .slave ∧ 0x0F < own.toNat → t.len = s.len ∧ ∀ a, t.bufRead a = s.bufRead a) ∧
      (role = .master ∨ own.toNat ≤ 0x0F → t.len = 0)) ∧
    (∀ condition, i = .assemble → t.output = some { result := .assembled none, condition := condition } →
      t.len = s.len ∧ ∀ a, t.bufRead a = s.bufRead a) ∧
    (∀ f condition, i = .assemble →
      t.output = some { result := .assembled (some f), condition := condition } →
      t.len + 4 + f.length = s.len ∧ ∀ a, a < t.len → t.bufRead a = s.bufRead (4 + f.length + a)) ∧
    (∀ addr rsv, i = .ingestAddr addr rsv →
      (addressMatch s.ownAddr (receivedAddress addr) = true → 1 ≤ s.params.cap →
        t.len = 1 ∧ t.bufRead 0 = .ok (addressByte addr rsv)) ∧
      (addressMatch s.ownAddr (receivedAddress addr) = false → t.len = 0))

/-- R127: a Slave whose buffer is full holds a frame image already complete or malformed. -/
def Obligations.FullBufferIsNeverMidFrame : Prop :=
  ∀ (s : State) (bytes : List Byte), s.params.wellFormed = true → s.Holds bytes →
    s.len = s.params.cap → parseFrame bytes ≠ .incomplete

/-- R128: after a length byte `0xFF` nothing is answered and the bytes keep coming, until the overflow; ASSEMBLE
neither returns a frame nor clears. -/
def Obligations.MalformedLengthIsHeldUntilOverflow : Prop :=
  ∀ (s : State) (bytes : List Byte) (data : Byte), s.constructed = true → s.Holds bytes →
    bytes[1]? = some 0xFF →
    (s.len < s.params.cap → ∃ t, exec (.ingestData data) s = .next t ∧ t.Holds (bytes ++ [data]) ∧
      Output.response t.output = some .noResponse ∧ t.phase = .ok .badLen) ∧
    (s.len = s.params.cap → ∃ t, exec (.ingestData data) s = .next t ∧ t.Holds [] ∧
      Output.response t.output = some (if s.role = .slave then .nack else .noResponse)) ∧
    (∃ t condition, exec .assemble s = .next t ∧ t.Holds bytes ∧
      t.output = some { result := .assembled none, condition := condition })

/-- R129: once a Slave has answered for the frame in its buffer, every further data word that fits is answered
the same. -/
def Obligations.TrailingDataRepeatsTheResponse : Prop :=
  ∀ (s t : State) (first next : Byte) (r : Response), s.bufferOk →
    exec (.ingestData first) s = .next t → Output.response t.output = some r → r ≠ .noResponse →
    t.len ≠ 0 → t.len < t.params.cap →
    ∃ u, exec (.ingestData next) t = .next u ∧ Output.response u.output = some r ∧
      u.len = t.len + 1 ∧ (∀ i, i < t.len → u.bufRead i = t.bufRead i) ∧ u.bufRead t.len = .ok next

/-- R25, R131: an ACK or NACK comes from INGEST.DATA of a Slave, and from nothing else. -/
def Obligations.OnlyASlaveIngestingDataAnswers : Prop :=
  ∀ (i : Instr) (s t : State), exec i s = .next t →
    Output.response t.output = some .ack ∨ Output.response t.output = some .nack →
    s.role = .slave ∧ s.len ≠ 0 ∧ ∃ data, i = .ingestData data

/-- R131: a Master never emits ACK or NACK, whatever operations are applied to it, until a RESET makes it
something else. -/
def Obligations.MasterNeverAnswers : Prop :=
  ∀ (is : List Instr) (s t : State) (outs : List (Option Output)), s.role = .master →
    (∀ own, .reset .slave own ∉ is) → execAll is s = .next (t, outs) →
    t.role = .master ∧
      ∀ out ∈ outs, Output.response out ≠ some .ack ∧ Output.response out ≠ some .nack

/-- R130, the transition table: the phase and the response after an INGEST, row by row. -/
def Obligations.IngestMovesThePhaseByTheTable : Prop :=
  ∀ (s : State) (bytes : List Byte), s.constructed = true → s.params.wellFormed = true →
    s.Holds bytes →
    (∀ addr rsv : Nibble, ∃ t, exec (.ingestAddr addr rsv) s = .next t ∧
      Output.response t.output = some .noResponse ∧
      (addressMatch s.ownAddr (receivedAddress addr) = true → t.phase = .ok .haveAddr ∧ t.len = 1) ∧
      (addressMatch s.ownAddr (receivedAddress addr) = false → t.phase = .ok .idle)) ∧
    (∀ data : Byte, ∃ t phase response, exec (.ingestData data) s = .next t ∧ t.phase = .ok phase ∧
      Output.response t.output = some response ∧
      (s.role = .master → response = .noResponse) ∧
      (bytes ≠ [] → s.len = s.params.cap →
        phase = .idle ∧ (s.role = .slave → response = .nack)) ∧
      (phaseOf bytes = .idle → phase = .idle ∧ response = .noResponse) ∧
      (phaseOf bytes = .haveAddr → response = .noResponse ∧
        phase = (if data = 0xFF then .badLen else if data = 0x00 then .checksum else .payload)) ∧
      (∀ l : Byte, bytes[1]? = some l → phaseOf bytes = .payload → response = .noResponse ∧
        phase = (if s.len + 1 < 2 + l.toNat then .payload else .checksum)) ∧
      (∀ l : Byte, bytes[1]? = some l → phaseOf bytes = .checksum →
        (s.len + 1 = 3 + l.toNat → phase = .checksum ∧ response = .noResponse) ∧
        (s.len + 1 = 4 + l.toNat → phase = .complete ∧
          (s.role = .slave → ∀ p, parseFrame (bytes ++ [data]) = .ok p →
            response = (if crcCheck p.payload p.checksum then .ack else .nack)))) ∧
      (phaseOf bytes = .complete → s.len < s.params.cap → phase = .complete ∧
        (s.role = .slave → ∀ p, parseFrame bytes = .ok p →
          response = (if crcCheck p.payload p.checksum then .ack else .nack))) ∧
      (phaseOf bytes = .badLen → s.len < s.params.cap → phase = .badLen ∧ response = .noResponse)) ∧
    (∃ t, exec .assemble s = .next t ∧ Output.response t.output = none ∧
      (∀ p, parseFrame bytes = .ok p → phaseOf bytes = .complete ∧ t.phase = .ok (phaseOf p.remainder)) ∧
      ((∀ p, parseFrame bytes ≠ .ok p) → t.phase = s.phase))

/-- R132, first property: a frame fed to the block, cut short anywhere after its address word, is not answered
and leaves the buffer non-empty. -/
def Obligations.PartialFrameIsSilent : Prop :=
  ∀ (s : State) (addr rsv : Nibble) (payload : List Byte) (k : Word16) (n : Nat),
    s.constructed = true → s.params.wellFormed = true →
    addressMatch s.ownAddr (receivedAddress addr) = true → payload.length ≤ Config.maxRxLen →
    n < payload.length + 3 →
    ∃ t outs, ingestUnits ((frameUnits (addressByte addr rsv) payload k).take (n + 1)) s = .next (t, outs) ∧
      t.Holds ((frameImage (addressByte addr rsv) payload k).take (n + 1)) ∧ t.len = n + 1 ∧
      outs.map Output.response = List.replicate (n + 1) (some .noResponse)

/-- R132, second and third properties: a frame addressed to a Slave, fed from its address word, is answered on
the word that completes it and on no other, ACK when the checksum is right and NACK when it is not, and stays in
the buffer. -/
def Obligations.CompleteFrameIsAnsweredOnItsLastWord : Prop :=
  ∀ (s : State) (addr rsv : Nibble) (payload : List Byte) (k : Word16),
    s.constructed = true → s.params.wellFormed = true → s.role = .slave →
    addressMatch s.ownAddr (receivedAddress addr) = true → payload.length ≤ Config.maxRxLen →
    ∃ t outs, ingestUnits (frameUnits (addressByte addr rsv) payload k) s = .next (t, outs) ∧
      t.Holds (frameImage (addressByte addr rsv) payload k) ∧
      t.role = s.role ∧ t.ownAddr = s.ownAddr ∧ t.params = s.params ∧ t.constructed = true ∧
      outs.map Output.response =
        List.replicate (payload.length + 3) (some .noResponse) ++
          [some (if k = crc16usb payload then .ack else .nack)]

/-- R132, fourth property: of a frame for an unrelated address nothing is answered and nothing is kept, however
many data words follow. -/
def Obligations.UnrelatedFrameLeavesNothing : Prop :=
  ∀ (s : State) (addr rsv : Nibble) (bytes : List Byte), s.constructed = true →
    addressMatch s.ownAddr (receivedAddress addr) = false →
    ∃ t outs, ingestUnits ({ marker := true, data := addressByte addr rsv } :: bytes.map dataUnit) s =
        .next (t, outs) ∧
      t.Holds [] ∧ outs.map Output.response = List.replicate (bytes.length + 1) (some .noResponse)

/-! ## ASSEMBLE -/

/-- R140, R141: ASSEMBLE on every constructed state that holds exactly a sequence of bytes, every field said. It
completes on all of them, in both roles, whatever the checksum. -/
def Obligations.AssembleTakesTheFirstFrame : Prop :=
  ∀ (s : State) (bytes : List Byte), s.constructed = true → s.Holds bytes →
    (∀ p, parseFrame bytes = .ok p → exec .assemble s = .next
      { s with len := p.remainder.length, buf := Memory.ofBytes 0 p.remainder,
               output := some { result := .assembled (some { address := p.address, payload := p.payload,
                                                             checksum := p.checksum }),
                                condition := none } }) ∧
    ((∀ p, parseFrame bytes ≠ .ok p) → ∃ condition, exec .assemble s = .next
      { s with output := some { result := .assembled none, condition := condition } })

/-- R142: exactly when ASSEMBLE returns nothing, that it then changes nothing but the output, and that applying
it again gives the same. -/
def Obligations.AssembleReturnsNothingExactlyWhen : Prop :=
  ∀ (s : State) (bytes : List Byte), s.constructed = true → s.Holds bytes →
    ∃ t frame condition, exec .assemble s = .next t ∧
      t.output = some { result := .assembled frame, condition := condition } ∧
      (frame = none ↔ bytes.length < 2 ∨ ∃ l, bytes[1]? = some l ∧
        (l = 0xFF ∨ bytes.length < 4 + l.toNat)) ∧
      (frame = none → t = { s with output := t.output } ∧ exec .assemble t = .next t)

/-- R143, R144: back-to-back frame images are delivered one by one, in order, one for each ASSEMBLE, and what
follows the last stays in the buffer. -/
def Obligations.RepeatedAssembleDeliversEveryFrame : Prop :=
  ∀ (frames : List (Byte × List Byte × Word16)) (rest : List Byte) (s : State), s.constructed = true →
    (∀ f ∈ frames, f.2.1.length ≤ Config.maxRxLen) →
    s.Holds ((frames.map fun f => frameImage f.1 f.2.1 f.2.2).flatten ++ rest) →
    ∃ t outs, execAll (List.replicate frames.length .assemble) s = .next (t, outs) ∧
      t.Holds rest ∧
      outs = frames.map fun f => some
        { result := .assembled (some { address := addressOfByte f.1, payload := f.2.1, checksum := f.2.2 }),
          condition := none }

/-- R69, R141: what can be said of every Frame ASSEMBLE returns: its address fits four bits, its length is at
most 254, and its attributes are those of R69. -/
def Obligations.AssembledFrameIsInRange : Prop :=
  ∀ (s t : State) (f : Frame) (condition : Option Condition), exec .assemble s = .next t →
    t.output = some { result := .assembled (some f), condition := condition } →
    f.address.toNat ≤ 15 ∧ f.length = f.payload.length ∧ f.length ≤ 254 ∧
      s.bufRead 1 = .ok (BitVec.ofNat 8 f.length) ∧
      (f.broadcast = true ↔ f.address = 0x0F) ∧ (f.valid = true ↔ f.checksum = crc16usb f.payload)

/-! ## SEND -/

/-- R150, R151, R152: SEND on every constructed state and every payload, the units as their nine bits; nothing
but the output changes. It completes for every payload. -/
def Obligations.SendFramesThePayload : Prop :=
  ∀ (s : State) (payload : List Byte), s.constructed = true →
    (payload.length < 254 → ∃ units, exec (.send payload) s = .next
        { s with output := some { result := .sent (.ok units), condition := none } } ∧
      units.map WireUnit.bits =
        [0x100#9 ||| ((s.ownAddr &&& 0x0F).setWidth 9 <<< 4)] ++ [BitVec.ofNat 9 payload.length] ++
          payload.map (fun b => b.setWidth 9) ++
          [BitVec.ofNat 9 ((crc16usb payload).toNat % 256), BitVec.ofNat 9 ((crc16usb payload).toNat / 256)]) ∧
    (254 ≤ payload.length → exec (.send payload) s = .next
      { s with output := some { result := .sent (.payloadTooLarge payload.length),
                                condition := some (.payloadTooLarge payload.length) } })

/-- R153: a unit SEND returns is an address word exactly when it is the first. -/
def Obligations.SendMarksTheFirstUnitOnly : Prop :=
  ∀ (s t : State) (payload : List Byte) (units : List WireUnit) (condition : Option Condition),
    exec (.send payload) s = .next t →
    t.output = some { result := .sent (.ok units), condition := condition } →
    units.length = payload.length + 4 ∧
      ∀ (n : Nat) (u : WireUnit), units[n]? = some u → (u.marker = true ↔ n = 0)

/-- R112: the bytes SEND produces decode to the payload, with the sender's address, a checksum that is valid and
nothing left over. -/
def Obligations.SentFrameParsesBack : Prop :=
  ∀ (own : Byte) (payload : List Byte), payload.length ≤ Config.maxTxLen → own.toNat ≤ 15 →
    parseFrameOwned ((sendUnits own payload).map WireUnit.data) =
        .ok ({ address := own, payload := payload, checksum := crc16usb payload }, []) ∧
      Frame.valid { address := own, payload := payload, checksum := crc16usb payload } = true

/-- R174 with R112, R120, R132, R140, R150: a payload sent by one node and carried by the bus reaches every
Slave that matches the sender's address: it answers ACK on the last unit only, and its ASSEMBLE returns the
payload, valid, with the sender's address, leaving its buffer empty. -/
def Obligations.SentFrameReachesEveryMatchingSlave : Prop :=
  ∀ (x : State) (payload : List Byte) (nodes : List State) (n : Nat) (y : State),
    x.constructed = true → x.ownAddr.toNat ≤ 15 → payload.length < 254 →
    nodes[n]? = some y → y.constructed = true → y.params.wellFormed = true → y.role = .slave →
    addressMatch y.ownAddr x.ownAddr = true →
    ∃ x' units, exec (.send payload) x = .next x' ∧
      x'.output = some { result := .sent (.ok units), condition := none } ∧
      ∃ z outs, (Bus.carry units nodes)[n]? = some (.next (z, outs)) ∧
        outs.map Output.response =
          List.replicate (payload.length + 3) (some .noResponse) ++ [some .ack] ∧
        ∃ w, exec .assemble z = .next w ∧ w.len = 0 ∧
          w.output = some { result := .assembled (some { address := x.ownAddr, payload := payload,
                                                         checksum := crc16usb payload }),
                            condition := none }

/-! ## RESET -/

/-- R190, R191, R192: RESET on every state, constructed or not, in any phase, every field said. -/
def Obligations.ResetInstallsTheConfiguration : Prop :=
  ∀ (s : State) (role : Role) (own : Byte),
    (role = .slave ∧ 0x0F < own.toNat → exec (.reset role own) s = .next
      { s with output := some { result := .resetAnswer .refused, condition := none } }) ∧
    (role = .slave ∧ own.toNat ≤ 0x0F → exec (.reset role own) s = .next
      { s with constructed := true, role := .slave, ownAddr := own, len := 0, buf := [],
               output := some { result := .resetAnswer .done, condition := none } }) ∧
    (role = .master → exec (.reset role own) s = .next
      { s with constructed := true, role := .master, ownAddr := s.params.masterAddr, len := 0, buf := [],
               output := some { result := .resetAnswer .done, condition := none } })

/-- R193: before the first successful RESET every other operation is refused. -/
def Obligations.BeforeTheFirstResetOthersAreRefused : Prop :=
  ∀ (s : State) (i : Instr), s.constructed = false → (∀ role own, i ≠ .reset role own) →
    exec i s = .refused .notConstructed

/-- R35: a launch state is idle, holds no byte and no response, has the configuration of its RESET, and meets the
invariant. State.reset is one; its role, address and parameters are the model's choice (logs 1, 2). -/
def Obligations.LaunchStateIsIdleAndLegal : Prop :=
  (∀ (p : Params) (role : Role) (own : Byte), p.wellFormed = true → own.toNat ≤ 0x0F →
    (State.launch p role (installedAddress p role own)).Inv ∧
    (State.launch p role (installedAddress p role own)).Holds [] ∧
    (State.launch p role (installedAddress p role own)).phase = .ok .idle ∧
    (State.launch p role (installedAddress p role own)).output = none ∧
    exec (.reset role own) (State.launch p role (installedAddress p role own)) = .next
      ((State.launch p role (installedAddress p role own)).withOutput (.resetAnswer .done) none)) ∧
  State.reset.Inv ∧ State.reset.Holds [] ∧ State.reset.constructed = true

/-! ## The whole machine -/

/-- R7, R28, R33, R21: every step keeps the invariant: legal parameters, a legal configuration, `LEN ≤ CAP`, and
the bytes held exactly those below `LEN`. -/
def Obligations.StepKeepsTheInvariant : Prop :=
  ∀ s t : State, s.Inv → step s = .next t → t.Inv

/-- The invariant gives the canonical form of the memory, so every step keeps that too (R21). -/
def Obligations.StepKeepsTheCanonicalMemory : Prop :=
  ∀ s t : State, s.Inv → step s = .next t → Memory.wf t.buf ∧ t.view = .ok (t.buf.map Prod.snd)

/-- R160: the block never traps, halts or locks up: from a constructed state that meets the invariant, every
sequence of operations completes, one output for each. -/
def Obligations.NoOperationStopsTheBlock : Prop :=
  ∀ (is : List Instr) (s : State), s.Inv → s.constructed = true →
    ∃ t outs, execAll is s = .next (t, outs) ∧ t.Inv ∧ t.constructed = true ∧
      outs.length = is.length ∧ ∀ out ∈ outs, out ≠ none

/-- R27, R28, R168, R172: `ROLE` and `OWN_ADDR` are written by RESET only; no operation changes a parameter
(R7) or what waits at the port. -/
def Obligations.OnlyResetWritesTheConfiguration : Prop :=
  ∀ (i : Instr) (s t : State), exec i s = .next t →
    t.params = s.params ∧ t.port = s.port ∧
    ((∀ role own, i ≠ .reset role own) →
      t.role = s.role ∧ t.ownAddr = s.ownAddr ∧ t.constructed = s.constructed)

/-- R32, R143: the first byte of a buffer that is not empty is the byte of a matching address word, the first
byte of a remainder ASSEMBLE moved, or what it was before. -/
def Obligations.FirstByteComesFromAnAddressWordOrARemainder : Prop :=
  ∀ (i : Instr) (s t : State), s.bufferOk → exec i s = .next t → t.len ≠ 0 →
    (∃ addr rsv, i = .ingestAddr addr rsv ∧ addressMatch s.ownAddr (receivedAddress addr) = true ∧
      t.len = 1 ∧ t.bufRead 0 = .ok (addressByte addr rsv)) ∨
    (i = .assemble ∧ t.len < s.len ∧ ∃ l, s.bufRead 1 = .ok l ∧
      t.bufRead 0 = s.bufRead (4 + l.toNat)) ∨
    (s.len ≠ 0 ∧ t.bufRead 0 = s.bufRead 0)

/-- R45: what each operation may make of the bytes held: INGEST appends or clears, ASSEMBLE leaves a suffix, SEND
nothing, RESET clears. -/
def Obligations.OperationsTouchTheBufferThroughTheirPrimitives : Prop :=
  ∀ (i : Instr) (s t : State) (bytes : List Byte), s.Holds bytes → 1 ≤ s.params.cap →
    exec i s = .next t → ∃ bytes', t.Holds bytes' ∧
    match i with
    | .ingestAddr addr rsv => bytes' = [] ∨ bytes' = [addressByte addr rsv]
    | .ingestData data => bytes' = bytes ∨ bytes' = [] ∨ bytes' = bytes ++ [data]
    | .assemble => ∃ taken, bytes = taken ++ bytes'
    | .send _ => bytes' = bytes
    | .reset _ _ => bytes' = bytes ∨ bytes' = []

/-- R203: a frame that is not complete leaves the buffer only by an address word, an overflow or a RESET. -/
def Obligations.PartialFrameStaysUntilClearedOrCompleted : Prop :=
  ∀ (i : Instr) (s t : State) (bytes : List Byte), s.Holds bytes → bytes ≠ [] →
    (∀ p, parseFrame bytes ≠ .ok p) → exec i s = .next t →
    (∃ more, t.Holds (bytes ++ more)) ∨ (∃ addr rsv, i = .ingestAddr addr rsv) ∨
      (∃ role own, i = .reset role own) ∨ (s.len = s.params.cap ∧ ∃ data, i = .ingestData data)

/-- R22: an output is not held by the block: what the previous operation handed back never matters, nor does
what waits at the port. -/
def Obligations.NoOperationReadsAnOutput : Prop :=
  ∀ (i : Instr) (s : State) (r : Result) (c : Option Condition) (cs : List Command),
    exec i (s.withOutput r c) = exec i s ∧
    (∀ t, exec i s = .next t → exec i (s.withPort cs) = .next (t.withPort cs))

/-- R161, R170: the condition that arises in an operation, as the table has it. That an incomplete or malformed
parse is recorded though the pseudocode signals nothing is the model's reading (log 14). -/
def Obligations.ConditionsAreThoseOfTheTable : Prop :=
  ∀ (s t : State) (i : Instr) (result : Result) (condition : Condition), exec i s = .next t →
    t.output = some { result := result, condition := some condition } →
    match condition with
    | .bufferExhausted => (∃ data, i = .ingestData data) ∧ s.len ≠ 0 ∧ s.params.cap ≤ s.len ∧ t.len = 0 ∧
        result = .response (overflowResponse s.role)
    | .incomplete => (∃ bytes, t.view = .ok bytes ∧ parseFrame bytes = .incomplete) ∧
        ((∃ data, i = .ingestData data) ∧ s.role = .slave ∧ t.len = s.len + 1 ∧
            result = .response .noResponse ∨
          i = .assemble ∧ result = .assembled none ∧ t.buf = s.buf ∧ t.len = s.len)
    | .checksumMismatch => (∃ data, i = .ingestData data) ∧ s.role = .slave ∧ t.len = s.len + 1 ∧
        result = .response .nack ∧
        ∃ bytes p, t.view = .ok bytes ∧ parseFrame bytes = .ok p ∧ p.checksum ≠ crc16usb p.payload
    | .payloadTooLarge n => 254 ≤ n ∧ (∃ payload, i = .send payload ∧ payload.length = n) ∧
        result = .sent (.payloadTooLarge n) ∧ t.buf = s.buf ∧ t.len = s.len
    | .addressMismatch r => (∃ addr rsv, i = .ingestAddr addr rsv ∧ r = addr.setWidth 8) ∧
        addressMatch s.ownAddr r = false ∧ result = .response .noResponse ∧ t.len = 0
    | .malformed => (∃ bytes, t.view = .ok bytes ∧ parseFrame bytes = .malformed) ∧
        ((∃ data, i = .ingestData data) ∧ s.role = .slave ∧ t.len = s.len + 1 ∧
            result = .response .noResponse ∨
          i = .assemble ∧ result = .assembled none ∧ t.buf = s.buf ∧ t.len = s.len)

/-- R68, R25: the images of the responses. -/
def Obligations.ResponseImages : Prop :=
  Response.ack.image = [0x11, 0x00, 0x00, 0x00] ∧ Response.nack.image = [0x12, 0x00, 0x00, 0x00] ∧
  Response.noResponse.image = []

/-- R26: the three status predicates are functions of `LEN`. -/
def Obligations.StatusIsReadFromLen : Prop :=
  ∀ s : State, (s.inProgress = true ↔ 0 < s.len) ∧ (s.idle = true ↔ s.len = 0) ∧
    (s.full = true ↔ s.len = s.params.cap) ∧ (s.inProgress = !s.idle)
end

