-- ==== Sys2Proof/Laws/Memory.lean ====
section
/-! SUPPORT. The laws of the memory: a read after a write, the canonical form kept by every memory operation, and the
memory that holds exactly a sequence of bytes. -/

namespace Sys2Proof.Machine

theorem Memory.read_write_same (m : List Host.Cell) (a : Nat) (b : Byte) :
    Memory.read (Memory.write m a b) a = some b := by
  induction m with
  | nil => simp [Memory.write, Memory.read]
  | cons c m ih =>
    obtain ⟨k, v⟩ := c
    simp only [Memory.write]
    split
    · simp [Memory.read]
    · split
      · simp [Memory.read]
      · rename_i hne
        simp [Memory.read, Ne.symm hne, ih]

theorem Memory.read_write_other (m : List Host.Cell) {a x : Nat} (b : Byte) (h : x ≠ a) :
    Memory.read (Memory.write m a b) x = Memory.read m x := by
  induction m with
  | nil => simp [Memory.write, Memory.read, h.symm]
  | cons c m ih =>
    obtain ⟨k, v⟩ := c
    simp only [Memory.write]
    split
    · simp [Memory.read, h.symm]
    · split
      · rename_i hk
        subst hk
        simp [Memory.read, h.symm]
      · simp [Memory.read, ih]

theorem Memory.mem_write {m : List Host.Cell} {a : Nat} {b : Byte} {c : Host.Cell}
    (h : c ∈ Memory.write m a b) : c = (a, b) ∨ c ∈ m := by
  induction m with
  | nil => simpa [Memory.write] using h
  | cons d m ih =>
    obtain ⟨k, v⟩ := d
    simp only [Memory.write] at h
    split at h
    · simpa using h
    · split at h
      · rcases List.mem_cons.mp h with h | h
        · exact .inl h
        · exact .inr (List.mem_cons_of_mem _ h)
      · rcases List.mem_cons.mp h with h | h
        · exact .inr (h ▸ List.mem_cons_self)
        · exact (ih h).imp_right (List.mem_cons_of_mem _)

/-- The empty memory has the canonical form. -/
theorem Memory.nil_wf : Memory.wf [] := by simp [Memory.wf]

/-- A write keeps the canonical form. -/
theorem Memory.write_wf {m : List Host.Cell} (a : Nat) (b : Byte) (h : Memory.wf m) :
    Memory.wf (Memory.write m a b) := by
  refine ⟨?_, fun _ _ => by simp [Memory.unlisted]⟩
  have hm := h.1
  clear h
  induction m with
  | nil => simp [Memory.write]
  | cons d m ih =>
    obtain ⟨k, v⟩ := d
    have ⟨hk, hm'⟩ := List.pairwise_cons.mp hm
    simp only [Memory.write]
    split
    · rename_i hlt
      refine List.pairwise_cons.mpr ⟨fun c hc => ?_, hm⟩
      rcases List.mem_cons.mp hc with rfl | hc
      · exact hlt
      · exact Nat.lt_trans hlt (hk c hc)
    · split
      · rename_i heq
        subst heq
        exact List.pairwise_cons.mpr ⟨hk, hm'⟩
      · refine List.pairwise_cons.mpr ⟨fun c hc => ?_, ih hm'⟩
        rcases Memory.mem_write hc with rfl | hc
        · show k < a; omega
        · exact hk c hc

/-- The addresses of a memory that holds exactly a sequence of bytes. -/
theorem Memory.map_fst_ofBytes (a : Nat) (bs : List Byte) :
    (Memory.ofBytes a bs).map Prod.fst = List.range' a bs.length := by
  induction bs generalizing a with
  | nil => rfl
  | cons b bs ih => simp [Memory.ofBytes, ih, List.range'_succ]

theorem Memory.map_snd_ofBytes (a : Nat) (bs : List Byte) :
    (Memory.ofBytes a bs).map Prod.snd = bs := by
  induction bs generalizing a with
  | nil => rfl
  | cons b bs ih => simp [Memory.ofBytes, ih]

/-- Cells at consecutive addresses are the memory that holds exactly their bytes. -/
theorem Memory.eq_ofBytes {m : List Host.Cell} {a n : Nat}
    (h : m.map Prod.fst = List.range' a n) : m = Memory.ofBytes a (m.map Prod.snd) := by
  induction m generalizing a n with
  | nil => rfl
  | cons c m ih =>
    cases n with
    | zero => simp at h
    | succ n =>
      simp only [List.map_cons, List.range'_succ, List.cons.injEq] at h
      simp only [List.map_cons, Memory.ofBytes, ← h.1]
      rw [← h.1] at h
      exact congrArg _ (ih h.2)

/-- A memory that holds exactly a sequence of bytes has the canonical form. -/
theorem Memory.ofBytes_wf (a : Nat) (bs : List Byte) : Memory.wf (Memory.ofBytes a bs) := by
  refine ⟨?_, fun _ _ => by simp [Memory.unlisted]⟩
  have h : ((Memory.ofBytes a bs).map Prod.fst).Pairwise (· < ·) := by
    rw [Memory.map_fst_ofBytes]
    exact List.pairwise_lt_range'
  exact List.pairwise_map.mp h

theorem Memory.read_ofBytes (a i : Nat) (bs : List Byte) :
    Memory.read (Memory.ofBytes a bs) i = if i < a then none else bs[i - a]? := by
  induction bs generalizing a with
  | nil => simp [Memory.ofBytes, Memory.read, Memory.unlisted]
  | cons b bs ih =>
    simp only [Memory.ofBytes, Memory.read, ih]
    by_cases h : a = i
    · simp [h]
    · by_cases h2 : i < a
      · simp [h, h2, Nat.lt_succ_of_lt h2]
      · have : ¬ i < a + 1 := by omega
        have h3 : i - a = (i - (a + 1)) + 1 := by omega
        simp [h, h2, this, h3]

theorem Memory.write_ofBytes_end (a : Nat) (bs : List Byte) (b : Byte) :
    Memory.write (Memory.ofBytes a bs) (a + bs.length) b = Memory.ofBytes a (bs ++ [b]) := by
  induction bs generalizing a with
  | nil => simp [Memory.ofBytes, Memory.write]
  | cons c bs ih =>
    have h1 : ¬ a + (bs.length + 1) < a := by omega
    have h2 : ¬ a + (bs.length + 1) = a := by omega
    have h3 : a + (bs.length + 1) = a + 1 + bs.length := by omega
    simp only [List.length_cons, List.cons_append, Memory.ofBytes, Memory.write, h1, h2, if_false]
    rw [h3, ih]

end Sys2Proof.Machine
end

