-- ==== Sys2Proof/Laws/State.lean ====
section
/-! SUPPORT. One lemma per field per update of the state, so that no later proof unfolds a record update. -/

namespace Sys2Proof.Machine

@[simp] theorem State.clear_params (s : State) :
    s.clear.params = s.params := rfl
@[simp] theorem State.clear_constructed (s : State) :
    s.clear.constructed = s.constructed := rfl
@[simp] theorem State.clear_role (s : State) :
    s.clear.role = s.role := rfl
@[simp] theorem State.clear_ownAddr (s : State) :
    s.clear.ownAddr = s.ownAddr := rfl
@[simp] theorem State.clear_len (s : State) :
    s.clear.len = 0 := rfl
@[simp] theorem State.clear_buf (s : State) :
    s.clear.buf = [] := rfl
@[simp] theorem State.clear_port (s : State) :
    s.clear.port = s.port := rfl
@[simp] theorem State.clear_output (s : State) :
    s.clear.output = s.output := rfl

@[simp] theorem State.append_params (s : State) (b : Byte) :
    (s.append b).params = s.params := rfl
@[simp] theorem State.append_constructed (s : State) (b : Byte) :
    (s.append b).constructed = s.constructed := rfl
@[simp] theorem State.append_role (s : State) (b : Byte) :
    (s.append b).role = s.role := rfl
@[simp] theorem State.append_ownAddr (s : State) (b : Byte) :
    (s.append b).ownAddr = s.ownAddr := rfl
@[simp] theorem State.append_len (s : State) (b : Byte) :
    (s.append b).len = s.len + 1 := rfl
@[simp] theorem State.append_buf (s : State) (b : Byte) :
    (s.append b).buf = Memory.write s.buf s.len b := rfl
@[simp] theorem State.append_port (s : State) (b : Byte) :
    (s.append b).port = s.port := rfl
@[simp] theorem State.append_output (s : State) (b : Byte) :
    (s.append b).output = s.output := rfl

@[simp] theorem State.replace_params (s : State) (bs : List Byte) :
    (s.replace bs).params = s.params := rfl
@[simp] theorem State.replace_constructed (s : State) (bs : List Byte) :
    (s.replace bs).constructed = s.constructed := rfl
@[simp] theorem State.replace_role (s : State) (bs : List Byte) :
    (s.replace bs).role = s.role := rfl
@[simp] theorem State.replace_ownAddr (s : State) (bs : List Byte) :
    (s.replace bs).ownAddr = s.ownAddr := rfl
@[simp] theorem State.replace_len (s : State) (bs : List Byte) :
    (s.replace bs).len = bs.length := rfl
@[simp] theorem State.replace_buf (s : State) (bs : List Byte) :
    (s.replace bs).buf = Memory.ofBytes 0 bs := rfl
@[simp] theorem State.replace_port (s : State) (bs : List Byte) :
    (s.replace bs).port = s.port := rfl
@[simp] theorem State.replace_output (s : State) (bs : List Byte) :
    (s.replace bs).output = s.output := rfl

@[simp] theorem State.configure_params (s : State) (r : Role) (own : Byte) :
    (s.configure r own).params = s.params := rfl
@[simp] theorem State.configure_constructed (s : State) (r : Role) (own : Byte) :
    (s.configure r own).constructed = true := rfl
@[simp] theorem State.configure_role (s : State) (r : Role) (own : Byte) :
    (s.configure r own).role = r := rfl
@[simp] theorem State.configure_ownAddr (s : State) (r : Role) (own : Byte) :
    (s.configure r own).ownAddr = own := rfl
@[simp] theorem State.configure_len (s : State) (r : Role) (own : Byte) :
    (s.configure r own).len = s.len := rfl
@[simp] theorem State.configure_buf (s : State) (r : Role) (own : Byte) :
    (s.configure r own).buf = s.buf := rfl
@[simp] theorem State.configure_port (s : State) (r : Role) (own : Byte) :
    (s.configure r own).port = s.port := rfl
@[simp] theorem State.configure_output (s : State) (r : Role) (own : Byte) :
    (s.configure r own).output = s.output := rfl

@[simp] theorem State.withPort_params (s : State) (cs : List Command) :
    (s.withPort cs).params = s.params := rfl
@[simp] theorem State.withPort_constructed (s : State) (cs : List Command) :
    (s.withPort cs).constructed = s.constructed := rfl
@[simp] theorem State.withPort_role (s : State) (cs : List Command) :
    (s.withPort cs).role = s.role := rfl
@[simp] theorem State.withPort_ownAddr (s : State) (cs : List Command) :
    (s.withPort cs).ownAddr = s.ownAddr := rfl
@[simp] theorem State.withPort_len (s : State) (cs : List Command) :
    (s.withPort cs).len = s.len := rfl
@[simp] theorem State.withPort_buf (s : State) (cs : List Command) :
    (s.withPort cs).buf = s.buf := rfl
@[simp] theorem State.withPort_port (s : State) (cs : List Command) :
    (s.withPort cs).port = cs := rfl
@[simp] theorem State.withPort_output (s : State) (cs : List Command) :
    (s.withPort cs).output = s.output := rfl

@[simp] theorem State.withOutput_params (s : State) (r : Result) (c : Option Condition) :
    (s.withOutput r c).params = s.params := rfl
@[simp] theorem State.withOutput_constructed (s : State) (r : Result) (c : Option Condition) :
    (s.withOutput r c).constructed = s.constructed := rfl
@[simp] theorem State.withOutput_role (s : State) (r : Result) (c : Option Condition) :
    (s.withOutput r c).role = s.role := rfl
@[simp] theorem State.withOutput_ownAddr (s : State) (r : Result) (c : Option Condition) :
    (s.withOutput r c).ownAddr = s.ownAddr := rfl
@[simp] theorem State.withOutput_len (s : State) (r : Result) (c : Option Condition) :
    (s.withOutput r c).len = s.len := rfl
@[simp] theorem State.withOutput_buf (s : State) (r : Result) (c : Option Condition) :
    (s.withOutput r c).buf = s.buf := rfl
@[simp] theorem State.withOutput_port (s : State) (r : Result) (c : Option Condition) :
    (s.withOutput r c).port = s.port := rfl
@[simp] theorem State.withOutput_output (s : State) (r : Result) (c : Option Condition) :
    (s.withOutput r c).output = some { result := r, condition := c } := rfl

@[simp] theorem State.clear_clear (s : State) : s.clear.clear = s.clear := rfl

@[simp] theorem State.clear_replace (s : State) (bs : List Byte) :
    s.clear.replace bs = s.replace bs := rfl

@[simp] theorem State.withOutput_withOutput (s : State) (r r' : Result) (c c' : Option Condition) :
    (s.withOutput r c).withOutput r' c' = s.withOutput r' c' := rfl

@[simp] theorem State.withPort_port_self (s : State) : s.withPort s.port = s := rfl

end Sys2Proof.Machine
end

