-- ==== Sys2Proof/Laws/Buffer.lean ====
section
/-! SUPPORT. What the buffer primitives do, once each: reads, `view`, `clear`, `push`, `replace`, on a state that
holds exactly a sequence of bytes. -/

namespace Sys2Proof.Machine

/-- A state whose buffer is as R33 says holds exactly the bytes of its cells. -/
theorem State.holds_of_bufferOk {s : State} (h : s.bufferOk) : s.Holds (s.buf.map Prod.snd) := by
  have hl : s.buf.length = s.len := by
    simpa using congrArg List.length h.2
  refine ⟨Memory.eq_ofBytes (n := s.len) ?_, by simp [hl], by simpa [hl] using h.1⟩
  rw [h.2, List.range_eq_range']

/-- A state that holds exactly a sequence of bytes has its buffer as R33 says. -/
theorem State.bufferOk_of_holds {s : State} {bytes : List Byte} (h : s.Holds bytes) : s.bufferOk := by
  obtain ⟨hb, hl, hc⟩ := h
  refine ⟨by omega, ?_⟩
  rw [hb, Memory.map_fst_ofBytes, hl, List.range_eq_range']

/-- The buffer of a state that holds exactly a sequence of bytes has the canonical form. -/
theorem State.buf_wf_of_bufferOk {s : State} (h : s.bufferOk) : Memory.wf s.buf := by
  rw [(State.holds_of_bufferOk h).1]
  exact Memory.ofBytes_wf 0 _

theorem State.reset_buf_wf : Memory.wf State.reset.buf := Memory.nil_wf

theorem State.bufRead_of_holds {s : State} {bytes : List Byte} (h : s.Holds bytes) {i : Nat}
    (hi : i < bytes.length) : s.bufRead i = .ok bytes[i] := by
  obtain ⟨hb, _, hc⟩ := h
  have : ¬ s.params.cap ≤ i := by omega
  simp [State.bufRead, this, hb, Memory.read_ofBytes, hi]

theorem State.bufReadMany_of_holds {s : State} {bytes : List Byte} (h : s.Holds bytes) (n : Nat) :
    ∀ i, i + n = bytes.length → s.bufReadMany i n = .ok (bytes.drop i) := by
  induction n with
  | zero =>
    intro i hi
    simp [State.bufReadMany, show bytes.length ≤ i by omega]
  | succ n ih =>
    intro i hi
    have hlt : i < bytes.length := by omega
    simp only [State.bufReadMany, State.bufRead_of_holds h hlt, ih (i + 1) (by omega)]
    rw [List.drop_eq_getElem_cons hlt]

/-- What `view()` answers on a state that holds exactly a sequence of bytes (R44). -/
theorem State.view_of_holds {s : State} {bytes : List Byte} (h : s.Holds bytes) :
    s.view = .ok bytes := by
  have := State.bufReadMany_of_holds h bytes.length 0 (by omega)
  simpa [State.view, h.2.1] using this

/-- Everything a read of consecutive bytes can answer: each byte is the one its index reads as. -/
theorem State.bufReadMany_ok {s : State} {n : Nat} : ∀ {i : Nat} {bytes : List Byte},
    s.bufReadMany i n = .ok bytes →
    bytes.length = n ∧ ∀ j (h : j < bytes.length), s.bufRead (i + j) = .ok bytes[j] := by
  induction n with
  | zero =>
    intro i bytes h
    cases h
    exact ⟨rfl, fun j h => absurd h (Nat.not_lt_zero j)⟩
  | succ n ih =>
    intro i bytes h
    simp only [State.bufReadMany] at h
    split at h
    · cases h
    · rename_i b hb
      split at h
      · cases h
      · rename_i bs hbs
        cases h
        obtain ⟨hl, hr⟩ := ih hbs
        refine ⟨by simp [hl], fun j hj => ?_⟩
        cases j with
        | zero => simpa using hb
        | succ j =>
          have := hr j (by simpa using hj)
          rw [show i + (j + 1) = i + 1 + j by omega]
          simpa using this

/-- Everything `view()` can answer: `LEN` bytes, each the one its index reads as (R44). -/
theorem State.view_ok {s : State} {bytes : List Byte} (h : s.view = .ok bytes) :
    bytes.length = s.len ∧ ∀ j (h : j < bytes.length), s.bufRead j = .ok bytes[j] := by
  have := State.bufReadMany_ok h
  exact ⟨this.1, fun j hj => by simpa using this.2 j hj⟩

theorem State.bufRead_congr {s t : State} (hp : t.params = s.params) (hb : t.buf = s.buf) (i : Nat) :
    t.bufRead i = s.bufRead i := by
  simp [State.bufRead, hp, hb]

theorem State.bufReadMany_congr {s t : State} (hp : t.params = s.params) (hb : t.buf = s.buf) (n : Nat) :
    ∀ i, t.bufReadMany i n = s.bufReadMany i n := by
  induction n with
  | zero => intro i; rfl
  | succ n ih => intro i; simp only [State.bufReadMany, ih, State.bufRead_congr hp hb]

/-- `view()` reads `LEN` and `BUF` (and the capacity), nothing else. -/
theorem State.view_congr {s t : State} (hp : t.params = s.params) (hb : t.buf = s.buf)
    (hl : t.len = s.len) : t.view = s.view := by
  simp only [State.view, hl, State.bufReadMany_congr hp hb]

@[simp] theorem State.view_withOutput (s : State) (r : Result) (c : Option Condition) :
    (s.withOutput r c).view = s.view := State.view_congr rfl rfl rfl

@[simp] theorem State.view_withPort (s : State) (cs : List Command) :
    (s.withPort cs).view = s.view := State.view_congr rfl rfl rfl

theorem State.view_of_bufferOk {s : State} (h : s.bufferOk) :
    s.view = .ok (s.buf.map Prod.snd) :=
  State.view_of_holds (State.holds_of_bufferOk h)

/-- Everything `push` can do (R42). -/
theorem State.push_cases (s : State) (b : Byte) :
    (s.params.cap ≤ s.len ∧ s.push b = none) ∨ (s.len < s.params.cap ∧ s.push b = some (s.append b)) := by
  unfold State.push
  split
  · exact .inl ⟨‹_›, rfl⟩
  · exact .inr ⟨by omega, rfl⟩

theorem State.holds_clear (s : State) : s.clear.Holds [] := by
  simp [State.Holds, Memory.ofBytes]

theorem State.holds_append {s : State} {bytes : List Byte} (h : s.Holds bytes)
    (hlt : bytes.length < s.params.cap) (b : Byte) : (s.append b).Holds (bytes ++ [b]) := by
  obtain ⟨hb, hl, _⟩ := h
  refine ⟨?_, by simp [hl], by simpa using hlt⟩
  have := Memory.write_ofBytes_end 0 bytes b
  simpa [hb, hl] using this

theorem State.holds_replace (s : State) {bytes : List Byte} (h : bytes.length ≤ s.params.cap) :
    (s.replace bytes).Holds bytes := ⟨rfl, rfl, h⟩

/-- The push that follows a clear leaves exactly the byte (R133: it cannot be `full`). -/
theorem State.pushAfterClear_eq (s : State) (b : Byte) (h : 1 ≤ s.params.cap) :
    s.pushAfterClear b = s.replace [b] := by
  have : ¬ s.params.cap ≤ 0 := by omega
  simp [State.pushAfterClear, State.push, this, State.append, State.replace, State.clear, Memory.write,
    Memory.ofBytes]

/-- Everything the push that follows a clear can do, whatever the capacity. -/
theorem State.pushAfterClear_cases (s : State) (b : Byte) :
    (1 ≤ s.params.cap ∧ s.pushAfterClear b = s.replace [b]) ∨
      (s.params.cap = 0 ∧ s.pushAfterClear b = s.clear) := by
  by_cases h : 1 ≤ s.params.cap
  · exact .inl ⟨h, State.pushAfterClear_eq s b h⟩
  · have h0 : s.params.cap = 0 := by omega
    exact .inr ⟨h0, by simp [State.pushAfterClear, State.push, h0]⟩

end Sys2Proof.Machine
end

