-- ==== Sys2Proof/Laws/Crc.lean ====
section
/-! SUPPORT. The arithmetic of the CRC is carry-less (spec/40_crc.md R95): the shift is linear and loses nothing. -/

namespace Sys2Proof.Machine

@[simp] theorem crcFold_nil (c : Word16) : crcFold c [] = c := rfl
@[simp] theorem crcFold_cons (c : Word16) (b : Byte) (bs : List Byte) :
    crcFold c (b :: bs) = crcFold (crcStep c b) bs := rfl
theorem crcFold_append (c : Word16) (s t : List Byte) :
    crcFold c (s ++ t) = crcFold (crcFold c s) t := by
  simp [crcFold]

/-- A shift of an exclusive-OR is the exclusive-OR of the shifts. -/
theorem crcShift_xor (a b : Word16) : crcShift (a ^^^ b) = crcShift a ^^^ crcShift b := by
  unfold crcShift
  simp only [BitVec.getLsbD_xor, BitVec.ushiftRight_xor_distrib]
  cases a.getLsbD 0 <;> cases b.getLsbD 0 <;> simp
  · rw [BitVec.xor_assoc]
  · ac_rfl
  · rw [show a >>> 1 ^^^ 40961#16 ^^^ (b >>> 1 ^^^ 40961#16) =
      a >>> 1 ^^^ b >>> 1 ^^^ (40961#16 ^^^ 40961#16) by ac_rfl]
    simp

theorem crcShift_zero : crcShift 0 = 0 := by decide

theorem crcShifts_xor (n : Nat) (a b : Word16) :
    crcShifts n (a ^^^ b) = crcShifts n a ^^^ crcShifts n b := by
  induction n generalizing a b with
  | zero => rfl
  | succ n ih => simp [crcShifts, crcShift_xor, ih]

theorem crcShifts_add (m n : Nat) (c : Word16) : crcShifts (m + n) c = crcShifts n (crcShifts m c) := by
  induction m generalizing c with
  | zero => simp [crcShifts]
  | succ m ih => simp [crcShifts, Nat.succ_add, ih]

end Sys2Proof.Machine
end

