-- ==== Sys2Proof/Laws/Parser.lean ====
section
/-! SUPPORT. The frame-level decode in closed form, and the fields of a frame image. -/

namespace Sys2Proof.Machine

@[simp] theorem Parsed.bind_ok {α β : Type} (v : α) (k : α → Parsed β) : (Parsed.ok v).bind k = k v := rfl
@[simp] theorem Parsed.bind_incomplete {α β : Type} (k : α → Parsed β) :
    (Parsed.incomplete : Parsed α).bind k = .incomplete := rfl
@[simp] theorem Parsed.bind_malformed {α β : Type} (k : α → Parsed β) :
    (Parsed.malformed : Parsed α).bind k = .malformed := rfl

/-- The checksum is present exactly when two bytes are. -/
theorem readChecksum_of_length {bytes : List Byte} (h : bytes.length < 2) :
    readChecksum bytes = .incomplete := by
  match bytes, h with
  | [], _ => rfl
  | [_], _ => rfl

theorem parseFrame_nil : parseFrame [] = .incomplete := rfl
theorem parseFrame_single (b : Byte) : parseFrame [b] = .incomplete := rfl

theorem parseFrame_rejected (first : Byte) (rest : List Byte) :
    parseFrame (first :: Config.rejectedLength :: rest) = .malformed := by
  simp [parseFrame, readAddress, readLength]

/-- The decode while the image is not whole (R106). -/
theorem parseFrame_short {first length : Byte} {rest : List Byte}
    (hl : length ≠ Config.rejectedLength) (h : rest.length < length.toNat + 2) :
    parseFrame (first :: length :: rest) = .incomplete := by
  simp only [parseFrame, readAddress, readLength, Parsed.bind_ok, if_neg hl, readPayload]
  by_cases hp : rest.length < length.toNat
  · simp [hp]
  · have : (rest.drop length.toNat).length < 2 := by simp; omega
    simp [hp, readChecksum_of_length this]

/-- The decode of a whole image and what follows it (R106). -/
theorem parseFrame_image {first length : Byte} {payload rest : List Byte} {lo hi : Byte}
    (hl : length ≠ Config.rejectedLength) (hp : payload.length = length.toNat) :
    parseFrame (first :: length :: (payload ++ lo :: hi :: rest)) =
      .ok { address := addressOfByte first, payload := payload,
            checksum := checksumOf lo hi, remainder := rest } := by
  have h1 : ¬ (payload ++ lo :: hi :: rest).length < payload.length := by simp
  simp only [parseFrame, readAddress, readLength, Parsed.bind_ok, if_neg hl, readPayload, ← hp, h1,
    if_false, List.take_left, List.drop_left, readChecksum]

/-- Every sequence the decode can be given is one of four shapes. -/
theorem frame_shapes (bytes : List Byte) :
    bytes.length < 2 ∨
    (∃ first rest, bytes = first :: Config.rejectedLength :: rest) ∨
    (∃ first length rest, bytes = first :: length :: rest ∧ length ≠ Config.rejectedLength ∧
      rest.length < length.toNat + 2) ∨
    (∃ first length payload lo hi rest, bytes = first :: length :: (payload ++ lo :: hi :: rest) ∧
      length ≠ Config.rejectedLength ∧ payload.length = length.toNat) := by
  match bytes with
  | [] => exact .inl (by simp)
  | [_] => exact .inl (by simp)
  | first :: length :: rest =>
    by_cases hl : length = Config.rejectedLength
    · exact .inr (.inl ⟨first, rest, by rw [hl]⟩)
    · by_cases hr : rest.length < length.toNat + 2
      · exact .inr (.inr (.inl ⟨first, length, rest, rfl, hl, hr⟩))
      · refine .inr (.inr (.inr ⟨first, length, rest.take length.toNat, ?_⟩))
        have hd : 2 ≤ (rest.drop length.toNat).length := by simp; omega
        match hx : rest.drop length.toNat, hd with
        | lo :: hi :: tail, _ =>
          exact ⟨lo, hi, tail, by rw [← hx, List.take_append_drop], hl, by simp; omega⟩

/-- The checksum of two bytes gives them back (R50). -/
theorem checksumOf_lowByte_highByte (k : Word16) : checksumOf (lowByte k) (highByte k) = k := by
  apply BitVec.eq_of_getLsbD_eq
  intro i hi
  simp only [checksumOf, lowByte, highByte, BitVec.getLsbD_or, BitVec.getLsbD_setWidth,
    BitVec.getLsbD_shiftLeft, BitVec.getLsbD_extractLsb']
  by_cases h : i < 8
  · simp [h, hi]
  · have h8 : i - 8 < 8 := by omega
    have h16 : i - 8 < 16 := by omega
    have e : 8 + (i - 8) = i := by omega
    simp [h, hi, h8, h16, e]

/-- The length byte of a payload the deframer accepts is its length (R47). -/
theorem lengthByte_toNat {n : Nat} (h : n ≤ Config.maxRxLen) : (lengthByte n).toNat = n := by
  have : n < 256 := by simp only [Config.maxRxLen] at h; omega
  simp [lengthByte, Nat.mod_eq_of_lt this]

theorem lengthByte_ne_rejected {n : Nat} (h : n ≤ Config.maxRxLen) :
    lengthByte n ≠ Config.rejectedLength := by
  intro e
  have := congrArg BitVec.toNat e
  rw [lengthByte_toNat h] at this
  simp only [Config.maxRxLen, Config.rejectedLength] at h this
  simp at this
  omega

theorem frameImage_length (first : Byte) (payload : List Byte) (k : Word16) :
    (frameImage first payload k).length = payload.length + 4 := by
  simp [frameImage]

/-- A frame on the wire carries the bytes of its image (R64). -/
theorem frameUnits_data (first : Byte) (payload : List Byte) (k : Word16) :
    (frameUnits first payload k).map WireUnit.data = frameImage first payload k := by
  simp [frameUnits, frameImage, dataUnit, Function.comp_def]

end Sys2Proof.Machine
end

