-- ==== Sys2Proof/Laws/Operation.lean ====
section
/-! SUPPORT. What an operation can do, once each: if it answers next t, then one of these cases holds. The provers
cite these instead of unfolding a meaning. -/

namespace Sys2Proof.Machine

theorem nextState_eq_some {a : Answer} {t : State} : nextState a = some t ↔ a = .next t := by
  cases a <;> simp [nextState]

theorem State.finish_eq_next {s t : State} {r : Result} {c : Option Condition} :
    s.finish r c = .next t ↔ t = s.withOutput r c := by
  simp [State.finish, eq_comm]

theorem State.whenConstructed_of {s : State} (h : s.constructed = true) (k : Answer) :
    s.whenConstructed k = k := if_pos h

theorem State.whenConstructed_of_not {s : State} (h : s.constructed = false) (k : Answer) :
    s.whenConstructed k = .refused .notConstructed := by
  simp [State.whenConstructed, h]

theorem State.withView_of_ok {s : State} {bytes : List Byte} (h : s.view = .ok bytes)
    (k : List Byte → Answer) : s.withView k = k bytes := by
  simp [State.withView, h]

theorem State.withView_of_holds {s : State} {bytes : List Byte} (h : s.Holds bytes)
    (k : List Byte → Answer) : s.withView k = k bytes :=
  State.withView_of_ok (State.view_of_holds h) k

/-- The parameters of R7 are legal when the capacity and the Master's address are. -/
theorem params_wellFormed_iff (p : Params) :
    p.wellFormed = true ↔ 258 ≤ p.cap ∧ p.masterAddr.toNat ≤ 15 := by
  rw [Params.wellFormed, Bool.and_eq_true, decide_eq_true_eq, legalAddress, decide_eq_true_eq]
  rfl

theorem legalAddress_iff (a : Byte) : legalAddress a = true ↔ a.toNat ≤ 15 := by
  rw [legalAddress, decide_eq_true_eq]
  rfl

/-- Everything a sequence of operations can do, first operation first. -/
theorem execAll_cons_next {i : Instr} {is : List Instr} {s t : State} {outs : List (Option Output)}
    (h : execAll (i :: is) s = .next (t, outs)) :
    ∃ u rest, exec i s = .next u ∧ execAll is u = .next (t, rest) ∧ outs = u.output :: rest := by
  simp only [execAll] at h
  split at h
  · rename_i u hu
    split at h
    · rename_i v rest hv
      cases h
      exact ⟨u, rest, hu, hv, rfl⟩
    · cases h
    · cases h
  · cases h
  · cases h

theorem State.whenConstructed_next {s t : State} {k : Answer} (h : s.whenConstructed k = .next t) :
    s.constructed = true ∧ k = .next t := by
  unfold State.whenConstructed at h
  split at h
  · exact ⟨‹_›, h⟩
  · cases h

theorem State.withView_next {s t : State} {k : List Byte → Answer} (h : s.withView k = .next t) :
    ∃ bytes, s.view = .ok bytes ∧ k bytes = .next t := by
  unfold State.withView at h
  split at h
  · exact ⟨_, ‹_›, h⟩
  · cases h

/-- Everything INGEST.ADDR can do. -/
theorem execIngestAddr_cases {addr rsv : Nibble} {s t : State} (h : execIngestAddr addr rsv s = .next t) :
    s.constructed = true ∧
    ((addressMatch s.ownAddr (receivedAddress addr) = true ∧
        t = (s.pushAfterClear (addressByte addr rsv)).withOutput (.response .noResponse) none) ∨
      (addressMatch s.ownAddr (receivedAddress addr) = false ∧
        t = s.clear.withOutput (.response .noResponse) (some (.addressMismatch (receivedAddress addr))))) := by
  obtain ⟨hc, h⟩ := State.whenConstructed_next h
  refine ⟨hc, ?_⟩
  split at h
  · exact .inl ⟨‹_›, State.finish_eq_next.mp h⟩
  · exact .inr ⟨eq_false_of_ne_true ‹_›, State.finish_eq_next.mp h⟩

/-- Everything INGEST.DATA can do. -/
theorem execIngestData_cases {data : Byte} {s t : State} (h : execIngestData data s = .next t) :
    s.constructed = true ∧
    ((s.len = 0 ∧ t = s.withOutput (.response .noResponse) none) ∨
      (s.len ≠ 0 ∧ s.params.cap ≤ s.len ∧
        t = s.clear.withOutput (.response (overflowResponse s.role)) (some .bufferExhausted)) ∨
      (s.len ≠ 0 ∧ s.len < s.params.cap ∧ s.role = .master ∧
        t = (s.append data).withOutput (.response .noResponse) none) ∨
      (s.len ≠ 0 ∧ s.len < s.params.cap ∧ s.role = .slave ∧
        ∃ bytes, (s.append data).view = .ok bytes ∧
          t = (s.append data).withOutput (.response (fastResponse (parseFrame bytes)))
            (fastCondition (parseFrame bytes)))) := by
  obtain ⟨hc, h⟩ := State.whenConstructed_next h
  refine ⟨hc, ?_⟩
  split at h
  · exact .inl ⟨‹_›, State.finish_eq_next.mp h⟩
  · rcases State.push_cases s data with ⟨hf, hp⟩ | ⟨hf, hp⟩
    · rw [hp] at h
      exact .inr (.inl ⟨‹_›, hf, State.finish_eq_next.mp h⟩)
    · rw [hp] at h
      refine .inr (.inr ?_)
      cases hr : s.role with
      | master =>
        rw [hr] at h
        exact .inl ⟨‹_›, hf, rfl, State.finish_eq_next.mp h⟩
      | slave =>
        rw [hr] at h
        obtain ⟨bytes, hv, h⟩ := State.withView_next h
        exact .inr ⟨‹_›, hf, rfl, bytes, hv, State.finish_eq_next.mp h⟩

/-- Everything ASSEMBLE can do. -/
theorem execAssemble_cases {s t : State} (h : execAssemble s = .next t) :
    s.constructed = true ∧ ∃ bytes, s.view = .ok bytes ∧
    ((∃ p, parseFrame bytes = .ok p ∧
        t = (s.replace p.remainder).withOutput
          (.assembled (some { address := p.address, payload := p.payload, checksum := p.checksum })) none) ∨
      (parseFrame bytes = .incomplete ∧ t = s.withOutput (.assembled none) (some .incomplete)) ∨
      (parseFrame bytes = .malformed ∧ t = s.withOutput (.assembled none) (some .malformed))) := by
  obtain ⟨hc, h⟩ := State.whenConstructed_next h
  obtain ⟨bytes, hv, h⟩ := State.withView_next h
  refine ⟨hc, bytes, hv, ?_⟩
  unfold parseFrameOwned at h
  cases hp : parseFrame bytes with
  | ok p =>
    rw [hp] at h
    exact .inl ⟨p, rfl, State.finish_eq_next.mp h⟩
  | incomplete =>
    rw [hp] at h
    exact .inr (.inl ⟨rfl, State.finish_eq_next.mp h⟩)
  | malformed =>
    rw [hp] at h
    exact .inr (.inr ⟨rfl, State.finish_eq_next.mp h⟩)

/-- Everything SEND can do. -/
theorem execSend_cases {payload : List Byte} {s t : State} (h : execSend payload s = .next t) :
    s.constructed = true ∧ ∃ r c, t = s.withOutput (.sent r) c ∧
      (Config.maxTxLen < payload.length ∧ r = .payloadTooLarge payload.length ∧
          c = some (.payloadTooLarge payload.length) ∨
        payload.length ≤ Config.maxTxLen ∧ r = .ok (sendUnits s.ownAddr payload) ∧ c = none) := by
  obtain ⟨hc, h⟩ := State.whenConstructed_next h
  refine ⟨hc, ?_⟩
  split at h
  · exact ⟨_, _, State.finish_eq_next.mp h, .inl ⟨‹_›, rfl, rfl⟩⟩
  · exact ⟨_, _, State.finish_eq_next.mp h, .inr ⟨by omega, rfl, rfl⟩⟩

/-- Everything RESET can do. -/
theorem execReset_cases {role : Role} {own : Byte} {s t : State} (h : execReset role own s = .next t) :
    (resetRefused role own = true ∧ t = s.withOutput (.resetAnswer .refused) none) ∨
    (resetRefused role own = false ∧
      t = (s.configure role (installedAddress s.params role own)).clear.withOutput
        (.resetAnswer .done) none) := by
  unfold execReset at h
  split at h
  · exact .inl ⟨‹_›, State.finish_eq_next.mp h⟩
  · exact .inr ⟨eq_false_of_ne_true ‹_›, State.finish_eq_next.mp h⟩

end Sys2Proof.Machine
end

