-- ==== Sys2Proof/Laws/PerInstr.lean ====
section
/-! SUPPORT. A statement per instruction: the encoding of an instruction is matched by its own row of
spec/opcode_table.json and by no other. -/

namespace Sys2Proof.Laws

/-- A row of the opcode table: its match and mask (spec/30_encoding.md R65). -/
structure TableRow where
  mnemonic : String
  matchBits : CommandWord
  maskBits : CommandWord
  deriving DecidableEq, Repr

/-- The five rows. -/
def tableRows : List TableRow :=
  [⟨"INGEST.ADDR", 0x100, 0x700⟩, ⟨"INGEST.DATA", 0x000, 0x700⟩, ⟨"ASSEMBLE", 0x200, 0x600⟩,
    ⟨"SEND", 0x400, 0x600⟩, ⟨"RESET", 0x600, 0x600⟩]

/-- The row of an instruction. -/
def mnemonicOf : Instr → String
  | .ingestAddr _ _ => "INGEST.ADDR"
  | .ingestData _ => "INGEST.DATA"
  | .assemble => "ASSEMBLE"
  | .send _ => "SEND"
  | .reset _ _ => "RESET"

/-- The names of the rows that match a command word. -/
def rowsMatching (c : CommandWord) : List String :=
  (tableRows.filter fun r => c &&& r.maskBits == r.matchBits).map TableRow.mnemonic

namespace EncodesOwnRow

/-- The encoding of the instruction is matched by its own row and by no other. -/
def Statement (i : Instr) : Prop := rowsMatching (encode i).word = [mnemonicOf i]

theorem ingestAddr : ∀ addr rsv : Nibble, Statement (.ingestAddr addr rsv) := by
  unfold Statement; decide +kernel

theorem ingestData : ∀ data : Byte, Statement (.ingestData data) := by
  unfold Statement; decide +kernel

theorem assemble : Statement .assemble := by
  unfold Statement; decide

theorem send (payload : List Byte) : Statement (.send payload) := by
  show rowsMatching (0b10#2 ++ 0#9) = ["SEND"]
  decide

theorem reset (role : Role) : ∀ own : Byte, Statement (.reset role own) := by
  unfold Statement
  cases role <;> decide +kernel

end EncodesOwnRow
end Sys2Proof.Laws
end

