-- ==== Sys2Proof/Tests/Slice0.lean ====
section
/-! SUPPORT. Tests with expected results from the spec's own tables (the vector is named at each), and for every
statement with hypotheses a witness that meets them together, clause by clause. -/

namespace Sys2Proof.Machine.Tests

set_option Elab.async false

/-- A constructed node that holds these bytes, `MASTER_ADDR = 0x00`, nothing at the port, nothing handed back. -/
def node (role : Role) (own : Byte) (cap : Nat) (bytes : List Byte) : State where
  params := { cap := cap, masterAddr := 0x00 }
  constructed := true
  role := role
  ownAddr := own
  len := bytes.length
  buf := Memory.ofBytes 0 bytes
  port := []
  output := none

/-- The node before its first RESET. -/
def unbuilt : State := { node .slave 0x01 258 [] with constructed := false }

/-- The state V5.21 leaves: a malformed length byte and a full buffer. -/
def malformedFull : List Byte := 0x10 :: 0xFF :: List.replicate 256 0x00

/-- The buffer V5.24 leaves: the largest receivable frame, which exactly fills `CAP = 258`. -/
def largestFrame : List Byte := 0x10 :: 0xFE :: (List.replicate 254 0x5A ++ [0x68, 0x08])

/-- The bytes held after one operation, and its output. -/
def after (i : Instr) (s : State) : Option (List Byte × Option Output) :=
  match exec i s with
  | .next t => match t.view with
    | .ok bytes => some (bytes, t.output)
    | .error _ => none
  | .fault _ => none
  | .refused _ => none

/-! ## Well-formedness: one ill-formed term for each check -/

theorem test_wellFormed_refuses_slave_address_16 : (Instr.reset .slave 0x10).wellFormed = false := by decide

theorem test_wellFormed_accepts_slave_address_15 : (Instr.reset .slave 0x0F).wellFormed = true := by decide

theorem test_params_refuse_cap_257 :
    Params.wellFormed { cap := 257, masterAddr := 0x00 } = false := by decide

theorem test_params_refuse_master_address_16 :
    Params.wellFormed { cap := 258, masterAddr := 0x10 } = false := by decide

/-! ## Decoding: words written out from the patterns of R65, R66 (30_encoding.md) -/

-- 00 1 aaaa rrrr
theorem test_decode_ingestAddr :
    decode { word := 0b00110000101#11, payload := [] } = .ingestAddr 0b1000 0b0101 := by decide

-- 00 0 dddddddd
theorem test_decode_ingestData :
    decode { word := 0b00010100110#11, payload := [] } = .ingestData 0b10100110 := by decide

-- 01 xxxxxxxxx, the ignored bits all one
theorem test_decode_assemble : decode { word := 0b01111111111#11, payload := [] } = .assemble := by decide

-- 10 xxxxxxxxx, the ignored bits all one, the payload beside the word (R67)
theorem test_decode_send :
    decode { word := 0b10111111111#11, payload := [0x48, 0x69] } = .send [0x48, 0x69] := by decide

-- 11 m oooooooo, m = 1 Slave
theorem test_decode_reset_slave :
    decode { word := 0b11100001110#11, payload := [] } = .reset .slave 0b00001110 := by decide

-- 11 m oooooooo, m = 0 Master (V8.2: 0x6AB)
theorem test_decode_reset_master :
    decode { word := 0b11010101011#11, payload := [] } = .reset .master 0xAB := by decide

theorem test_number_above_eleven_bits_is_no_command :
    decodeTableWord 16 2048 = none ∧ readCommandWord 2048 = .error (.notElevenBits 2048) := by decide

-- R74: SEND, and the unit of an address word as its INGEST command
theorem test_encode : encode (.send [0x01]) = { word := 0x400, payload := [0x01] } ∧
    WireUnit.command { marker := true, data := 0x10 } = { word := 0x110, payload := [] } := by decide

/-! ## The checksum, the parser, the match -/

-- V2.13, V2.12
theorem test_crc_vectors :
    crc16usb [0x31, 0x32, 0x33, 0x34, 0x35, 0x36, 0x37, 0x38, 0x39] = 0xB4C8 ∧
      crc16usb [0x00, 0x00, 0x00, 0x00] = 0xDBFF := by decide +kernel

-- The catalogue's residue of CRC-16/USB is the register value 0xB001: log 21, against V2.17
theorem test_residue_register :
    crcFold 0xFFFF [0xFF, 0x00, 0xFF] = 0xB001 ∧ crc16usb [0xFF, 0x00, 0xFF] = 0x4FFE := by decide +kernel

-- V3.13
theorem test_parse_frame_with_a_remainder :
    parseFrame [0xF7, 0x01, 0x00, 0x40, 0xBF, 0xAA, 0xBB] =
      .ok { address := 0x0F, payload := [0x00], checksum := 0xBF40, remainder := [0xAA, 0xBB] } := by
  decide +kernel

-- V3.8, V3.4
theorem test_parse_frame_malformed_and_incomplete :
    parseFrame [0x10, 0xFF, 0x01, 0x02, 0x03] = .malformed ∧
      parseFrame [0x10, 0x00, 0x00] = .incomplete := by decide +kernel

-- V3.22, V3.23
theorem test_read_checksum_and_header :
    readChecksum [0x12, 0x34, 0x99] = .ok (0x3412, [0x99]) ∧
      parseHeaderFields [0x10, 0xFF] = .ok (0x01, 0xFF) := by decide +kernel

-- V4.6
theorem test_match_of_node_six :
    (List.range 16).filter (fun r => addressMatch 0x06 (BitVec.ofNat 8 r)) = [6, 7, 14, 15] := by
  decide +kernel

/-! ## One step of each operation -/

-- V5.13: an address word in mid-frame restarts; V5.4: its reserved nibble is stored raw
theorem test_ingestAddr_restarts :
    after (.ingestAddr 0x1 0x7) (node .slave 0x01 258 [0x10, 0x01, 0xFF]) =
      some ([0x17], some { result := .response .noResponse, condition := none }) := by decide +kernel

-- V5.14: a complete frame is lost at an unrelated address word
theorem test_ingestAddr_unrelated_clears :
    after (.ingestAddr 0x2 0x0) (node .slave 0x01 258 [0x10, 0x01, 0xFF, 0x00, 0xFF]) =
      some ([], some { result := .response .noResponse, condition := some (.addressMismatch 0x02) }) := by
  decide +kernel

-- V5.11: a wrong checksum high byte
theorem test_ingestData_nacks_a_bad_checksum :
    after (.ingestData 0xFE) (node .slave 0x01 258 [0x10, 0x01, 0xFF, 0x00]) =
      some ([0x10, 0x01, 0xFF, 0x00, 0xFE],
        some { result := .response .nack, condition := some .checksumMismatch }) := by decide +kernel

-- V5.25: the overflow right after the largest frame
theorem test_ingestData_overflows :
    after (.ingestData 0x77) (node .slave 0x01 258 largestFrame) =
      some ([], some { result := .response .nack, condition := some .bufferExhausted }) := by decide +kernel

-- V6.1
theorem test_assemble_moves_the_remainder :
    after .assemble (node .slave 0x01 258 [0x10, 0x01, 0xFF, 0x00, 0xFF, 0x99, 0x98]) =
      some ([0x99, 0x98], some { result := .assembled (some { address := 0x01, payload := [0xFF],
                                                              checksum := 0xFF00 }),
                                 condition := none }) := by decide +kernel

-- V6.3: the checksum does not filter
theorem test_assemble_returns_a_bad_checksum :
    after .assemble (node .slave 0x01 258 [0x10, 0x01, 0xFF, 0x12, 0x34]) =
      some ([], some { result := .assembled (some { address := 0x01, payload := [0xFF], checksum := 0x3412 }),
                       condition := none }) := by decide +kernel

-- V7.3
theorem test_send_units :
    (sendUnits 0x0A [0x01, 0x02, 0x03]).map WireUnit.bits =
      [0x1A0, 0x003, 0x001, 0x002, 0x003, 0x09E, 0x09E] := by decide +kernel

-- V7.7
theorem test_send_too_large :
    after (.send (List.replicate 254 0x5A)) (node .slave 0x01 258 [0x10]) =
      some ([0x10], some { result := .sent (.payloadTooLarge 254),
                           condition := some (.payloadTooLarge 254) }) := by decide +kernel

-- V8.2 with MASTER_ADDR = 0x00
theorem test_reset_master :
    nextState (exec (.reset .master 0xAB) (node .slave 0x01 258 [0x10])) =
      some { node .master 0x00 258 [] with
        output := some { result := .resetAnswer .done, condition := none } } := by decide +kernel

-- V8.4
theorem test_reset_refused :
    nextState (exec (.reset .slave 0x10) (node .slave 0x01 258 [0x10])) =
      some { node .slave 0x01 258 [0x10] with
        output := some { result := .resetAnswer .refused, condition := none } } := by decide +kernel

-- P1, word 2, placed where the step takes its next operation
theorem test_step_runs_a_fetch_word :
    nextState (step (State.reset.withFetchWord 16 0x110)) =
      some { node .slave 0x01 258 [0x10] with
        output := some { result := .response .noResponse, condition := none } } := by decide +kernel

/-! ## Witnesses: encoding and the step -/

/-- `c[10:9]` and `c[8]` of a command word, as the statements read them. -/
def fields (w : CommandWord) : Nat × Nat := (w.toNat / 512, w.toNat / 256 % 2)

-- The least and the greatest word of each pattern of R65
theorem witness_DecodeFollowsTheProcedure :
    [0x100#11, 0x1FF#11].map fields = [(0, 1), (0, 1)] ∧ [0x000#11, 0x0FF#11].map fields = [(0, 0), (0, 0)] ∧
    [0x200#11, 0x3FF#11].map fields = [(1, 0), (1, 1)] ∧ [0x400#11, 0x5FF#11].map fields = [(2, 0), (2, 1)] ∧
    [0x600#11, 0x7FF#11].map fields = [(3, 0), (3, 1)] := by decide +kernel

theorem witness_EncodeGivesBackEveryUsedBit :
    [0x000#11, 0x1FF#11, 0x600#11, 0x7FF#11].map (fun w => w.toNat / 512) = [0, 0, 3, 3] ∧
    [0x200#11, 0x3FF#11].map (fun w => w.toNat / 512) = [1, 1] ∧
    [0x400#11, 0x5FF#11].map (fun w => w.toNat / 512) = [2, 2] := by decide +kernel

theorem witness_StepRunsTheNextCommand :
    (State.reset.withFetchWord 16 0x110).port = { word := 0x110, payload := [] } :: [] ∧
      State.reset.port = [] := by decide

/-! ## Witnesses: the checksum and the parser -/

theorem witness_CheckRejectsEverySingleBitError :
    crcCheck [0x31, 0xFF, 0x32] (crc16usb [0x31, 0xFF, 0x32]) = true ∧
      [0x31, 0xFF, 0x32] = [0x31#8] ++ 0xFF#8 :: [0x32#8] ∧ 7 < 8 ∧ 15 < 16 := by decide +kernel

theorem witness_FieldReadersConsumeTheirFields :
    ([0xAA#8].length < 2 ∧ 1 ≤ [0xAA#8].length ∧ 0 ≤ ([] : List Byte).length) ∧
    ([0x12#8].length < 2 ∧ [0x12, 0x34, 0x99] = 0x12#8 :: 0x34#8 :: [0x99#8]) := by decide

-- V3.5: four bytes, the least that complete an image
theorem witness_ParseFrameOutcomes :
    parseFrame [0x10, 0x00, 0x00, 0x00] =
        .ok { address := 0x01, payload := [], checksum := 0x0000, remainder := [] } ∧
      parseFrame [0x10, 0x00, 0x00] = .incomplete ∧ parseFrame [0x10, 0xFF] = .malformed := by decide +kernel

theorem witness_ParseIsStableUnderExtension :
    parseFrame [0x10, 0x00, 0x00, 0x00] =
        .ok { address := 0x01, payload := [], checksum := 0x0000, remainder := [] } ∧
    parseFrame [0x10, 0xFF] = .malformed ∧
    (parseFrame [0x10, 0x00, 0x00] = .incomplete ∧ [0x10#8, 0x00, 0x00][1]? = some 0x00#8 ∧ 0x00#8 ≠ 0xFF ∧
      [0x10#8, 0x00, 0x00].length + [0x77#8].length = 4 + (0x00#8).toNat ∧
      [0x10#8, 0x00, 0x00].length + ([] : List Byte).length < 4 + (0x00#8).toNat) := by decide +kernel

theorem witness_PhaseIsThePositionOfTheParse :
    ∀ bytes ∈ [[], [0x10], [0x10, 0xFF], [0x10, 0x01], [0x10, 0x01, 0xFF], [0x10, 0x00, 0x00, 0x00]],
      (node .slave 0x01 258 bytes).Holds bytes := by decide +kernel

/-! ## Witnesses: the buffer and INGEST -/

theorem witness_BufferPrimitives :
    (node .slave 0x01 258 malformedFull).Holds malformedFull ∧
    (node .slave 0x01 258 malformedFull).len = (node .slave 0x01 258 malformedFull).params.cap ∧
    (node .slave 0x01 258 (malformedFull.take 257)).Holds (malformedFull.take 257) ∧
    (node .slave 0x01 258 (malformedFull.take 257)).len < 258 ∧
    largestFrame.length ≤ (node .slave 0x01 258 malformedFull).params.cap := by decide +kernel

theorem witness_MatchIsTheSubsetRule : (0x0F#8).toNat ≤ 15 ∧ (0x00#8).toNat ≤ 15 := by decide

theorem witness_IngestAddrRestartsOrClears :
    (node .slave 0x01 1 [0x10]).constructed = true ∧ 1 ≤ (node .slave 0x01 1 [0x10]).params.cap := by decide

theorem witness_IngestDataFollowsItsRule :
    ((node .slave 0x01 4 []).constructed = true ∧ (node .slave 0x01 4 []).Holds []) ∧
    (∀ role ∈ [Role.master, Role.slave], ∀ bytes ∈ [[0x10#8, 0x00, 0x00, 0x00], [0x10, 0xFF, 0x00, 0x00]],
      (node role 0x01 4 bytes).constructed = true ∧ (node role 0x01 4 bytes).Holds bytes ∧ bytes ≠ [] ∧
      bytes.length = (node role 0x01 4 bytes).params.cap) ∧
    (∀ role ∈ [Role.master, Role.slave], ∀ bytes ∈ [[0x10#8], [0x10, 0x00, 0x00], [0x10, 0x00, 0x01]],
      (node role 0x01 4 bytes).constructed = true ∧ (node role 0x01 4 bytes).Holds bytes ∧ bytes ≠ [] ∧
      bytes.length < (node role 0x01 4 bytes).params.cap ∧ (node role 0x01 4 bytes).role = role) ∧
    (parseFrame ([0x10, 0x00, 0x00] ++ [0x00]) = .ok
        { address := 0x01, payload := [], checksum := 0x0000, remainder := [] } ∧
      0x0000 = crc16usb [] ∧
      parseFrame ([0x10, 0x00, 0x01] ++ [0x00]) = .ok
        { address := 0x01, payload := [], checksum := 0x0001, remainder := [] } ∧
      0x0001 ≠ crc16usb [] ∧ parseFrame ([0x10] ++ [0x00]) = .incomplete) := by decide +kernel

theorem witness_IngestDataWritesOneByte :
    (nextState (exec (.ingestData 0x01) (node .slave 0x01 2 []))).isSome = true ∧
    ((nextState (exec (.ingestData 0x01) (node .slave 0x01 2 [0x10]))).isSome = true ∧
      (node .slave 0x01 2 [0x10]).len < (node .slave 0x01 2 [0x10]).params.cap) ∧
    ((nextState (exec (.ingestData 0x01) (node .slave 0x01 2 [0x10, 0x00]))).isSome = true ∧
      (node .slave 0x01 2 [0x10, 0x00]).params.cap ≤ (node .slave 0x01 2 [0x10, 0x00]).len) := by decide +kernel

theorem witness_OtherOperationsStoreWhatTheirRulesSay :
    (∀ i ∈ [Instr.send [0x01], .reset .slave 0x10, .reset .slave 0x0F, .reset .master 0xFF, .ingestAddr 0x1 0x0,
        .ingestAddr 0x2 0x0],
      (nextState (exec i (node .slave 0x01 1 [0x10]))).isSome = true) ∧
    (0x0F < (0x10#8).toNat ∧ (0x0F#8).toNat ≤ 0x0F) ∧
    (addressMatch 0x01 (receivedAddress 0x1) = true ∧ addressMatch 0x01 (receivedAddress 0x2) = false) ∧
    after .assemble (node .slave 0x01 258 [0x10, 0x00, 0x00]) = some ([0x10, 0x00, 0x00],
      some { result := .assembled none, condition := some .incomplete }) ∧
    after .assemble (node .slave 0x01 258 [0x10, 0x00, 0x00, 0x00, 0x77]) = some ([0x77],
      some { result := .assembled (some { address := 0x01, payload := [], checksum := 0x0000 }),
             condition := none }) := by decide +kernel

theorem witness_FullBufferIsNeverMidFrame :
    ∀ bytes ∈ [malformedFull, largestFrame],
      (node .slave 0x01 258 bytes).params.wellFormed = true ∧ (node .slave 0x01 258 bytes).Holds bytes ∧
      (node .slave 0x01 258 bytes).len = (node .slave 0x01 258 bytes).params.cap := by decide +kernel

theorem witness_MalformedLengthIsHeldUntilOverflow :
    (∀ bytes ∈ [[0x10, 0xFF], [0x10, 0xFF, 0x00]],
      (node .slave 0x01 3 bytes).constructed = true ∧ (node .slave 0x01 3 bytes).Holds bytes ∧
      bytes[1]? = some 0xFF) ∧
    (node .slave 0x01 3 [0x10, 0xFF]).len < (node .slave 0x01 3 [0x10, 0xFF]).params.cap ∧
    (node .slave 0x01 3 [0x10, 0xFF, 0x00]).len = (node .slave 0x01 3 [0x10, 0xFF, 0x00]).params.cap := by
  decide +kernel

/-- V5.15 up to its ACK, in a buffer that has room for one more byte. -/
def answered : State :=
  { node .slave 0x01 6 [0x10, 0x01, 0xFF, 0x00, 0xFF] with
    output := some { result := .response .ack, condition := none } }

theorem witness_TrailingDataRepeatsTheResponse :
    (node .slave 0x01 6 [0x10, 0x01, 0xFF, 0x00]).bufferOk ∧
    exec (.ingestData 0xFF) (node .slave 0x01 6 [0x10, 0x01, 0xFF, 0x00]) = .next answered ∧
    Output.response answered.output = some .ack ∧ Response.ack ≠ .noResponse ∧ answered.len ≠ 0 ∧
    answered.len < answered.params.cap :=
  ⟨by decide +kernel, nextState_eq_some.mp (by decide +kernel), by decide +kernel⟩

theorem witness_OnlyASlaveIngestingDataAnswers :
    ((nextState (exec (.ingestData 0xFF) (node .slave 0x01 6 [0x10, 0x01, 0xFF, 0x00]))).map fun t =>
      Output.response t.output) = some (some .ack) ∧
    ((nextState (exec (.ingestData 0x00) (node .slave 0x01 2 [0x10, 0xFF]))).map fun t =>
      Output.response t.output) = some (some .nack) := by decide +kernel

theorem witness_MasterNeverAnswers :
    (node .master 0x00 4 [0x10, 0x00, 0x00]).role = .master ∧
    (∀ i ∈ [Instr.ingestData 0x00, .ingestData 0x00], ∀ own, i ≠ .reset .slave own) ∧
    ∃ t outs, execAll [.ingestData 0x00, .ingestData 0x00] (node .master 0x00 4 [0x10, 0x00, 0x00]) =
      .next (t, outs) := by
  refine ⟨rfl, by simp, _, _, rfl⟩

/-- One buffer for each row of the table of R130, the boundary rows among them. -/
def phaseRows : List (List Byte) :=
  [[], [0x10], [0x10, 0x02, 0xAA], [0x10, 0x02], [0x10, 0x02, 0xAA, 0xBB], [0x10, 0x02, 0xAA, 0xBB, 0xC0],
    [0x10, 0x00, 0x00, 0x00], [0x10, 0xFF], largestFrame.take 257, malformedFull.take 257, largestFrame,
    malformedFull]

theorem witness_IngestMovesThePhaseByTheTable :
    (∀ role ∈ [Role.master, Role.slave], ∀ bytes ∈ phaseRows, (node role 0x01 258 bytes).constructed = true ∧
      (node role 0x01 258 bytes).params.wellFormed = true ∧ (node role 0x01 258 bytes).Holds bytes) ∧
    phaseRows.map phaseOf = [.idle, .haveAddr, .payload, .payload, .checksum, .checksum, .complete, .badLen,
      .checksum, .badLen, .complete, .badLen] := by decide +kernel

theorem witness_PartialFrameIsSilent :
    (node .slave 0x01 258 [0x99]).constructed = true ∧
    (node .slave 0x01 258 [0x99]).params.wellFormed = true ∧
    addressMatch (node .slave 0x01 258 [0x99]).ownAddr (receivedAddress 0x3) = true ∧
    (List.replicate 254 0x5A#8).length ≤ Config.maxRxLen ∧
    0 < (List.replicate 254 0x5A#8).length + 3 ∧ 256 < (List.replicate 254 0x5A#8).length + 3 := by decide +kernel

theorem witness_CompleteFrameIsAnsweredOnItsLastWord :
    (node .slave 0x01 258 [0x99]).constructed = true ∧
    (node .slave 0x01 258 [0x99]).params.wellFormed = true ∧ (node .slave 0x01 258 [0x99]).role = .slave ∧
    addressMatch (node .slave 0x01 258 [0x99]).ownAddr (receivedAddress 0xF) = true ∧
    (List.replicate 254 0x5A#8).length ≤ Config.maxRxLen := by decide +kernel

theorem witness_UnrelatedFrameLeavesNothing :
    (node .slave 0x01 258 [0x10, 0x01]).constructed = true ∧
    addressMatch (node .slave 0x01 258 [0x10, 0x01]).ownAddr (receivedAddress 0x2) = false := by decide

/-! ## Witnesses: ASSEMBLE and SEND -/

theorem witness_AssembleTakesTheFirstFrame :
    ((node .slave 0x01 258 largestFrame).constructed = true ∧
      (node .slave 0x01 258 largestFrame).Holds largestFrame ∧
      parseFrame largestFrame = .ok
        { address := 0x01, payload := List.replicate 254 0x5A, checksum := 0x0868, remainder := [] }) ∧
    ((node .master 0x00 258 [0x10, 0x00, 0x00]).constructed = true ∧
      (node .master 0x00 258 [0x10, 0x00, 0x00]).Holds [0x10, 0x00, 0x00] ∧
      ∀ p, parseFrame [0x10, 0x00, 0x00] ≠ .ok p) :=
  ⟨by decide +kernel, by decide +kernel, by decide +kernel, fun p h => by cases h⟩

theorem witness_AssembleReturnsNothingExactlyWhen :
    ∀ bytes ∈ [[], [0x10], [0x10, 0xFF], [0x10, 0x00, 0x00], [0x10, 0x00, 0x00, 0x00]],
      (node .slave 0x01 258 bytes).constructed = true ∧ (node .slave 0x01 258 bytes).Holds bytes := by decide

-- The buffer of P4 before its two ASSEMBLEs, with two bytes of a third frame
theorem witness_RepeatedAssembleDeliversEveryFrame :
    (node .slave 0x01 258 [0x10, 0x01, 0xFF, 0x00, 0xFF, 0x10, 0x02, 0xAA, 0xBB, 0xC0, 0x9C, 0x30, 0x01]).constructed
      = true ∧
    (∀ f ∈ [(0x10#8, [0xFF#8], 0xFF00#16), (0x10#8, [0xAA#8, 0xBB#8], 0x9CC0#16)],
      f.2.1.length ≤ Config.maxRxLen) ∧
    (node .slave 0x01 258 [0x10, 0x01, 0xFF, 0x00, 0xFF, 0x10, 0x02, 0xAA, 0xBB, 0xC0, 0x9C, 0x30, 0x01]).Holds
      (([(0x10#8, [0xFF#8], 0xFF00#16), (0x10#8, [0xAA#8, 0xBB#8], 0x9CC0#16)].map fun f =>
        frameImage f.1 f.2.1 f.2.2).flatten ++ [0x30, 0x01]) := by decide +kernel

-- V6.5: the broadcast frame of V5.7; V6.3: a frame that is not valid
theorem witness_AssembledFrameIsInRange :
    after .assemble (node .slave 0x06 258 [0xF0, 0x00, 0x00, 0x00]) = some ([],
      some { result := .assembled (some { address := 0x0F, payload := [], checksum := 0x0000 }),
             condition := none }) ∧
    after .assemble (node .slave 0x01 258 [0x10, 0x01, 0xFF, 0x12, 0x34]) = some ([],
      some { result := .assembled (some { address := 0x01, payload := [0xFF], checksum := 0x3412 }),
             condition := none }) := by decide +kernel

theorem witness_SendFramesThePayload :
    (node .slave 0x01 258 []).constructed = true ∧ (List.replicate 253 0xA5#8).length < 254 ∧
      254 ≤ (List.replicate 254 0x5A#8).length := by decide +kernel

-- V7.1, the least number of units
theorem witness_SendMarksTheFirstUnitOnly :
    after (.send []) (node .slave 0x01 258 []) = some ([], some
      { result := .sent (.ok [⟨true, 0x10⟩, ⟨false, 0x00⟩, ⟨false, 0x00⟩, ⟨false, 0x00⟩]),
        condition := none }) := by decide +kernel

theorem witness_SentFrameParsesBack :
    (List.replicate 253 0xA5#8).length ≤ Config.maxTxLen ∧ (0x0F#8).toNat ≤ 15 := by decide +kernel

-- P3: X and its listener C
theorem witness_SentFrameReachesEveryMatchingSlave :
    (node .slave 0x03 258 []).constructed = true ∧ (node .slave 0x03 258 []).ownAddr.toNat ≤ 15 ∧
    (List.replicate 253 0xA5#8).length < 254 ∧
    [node .slave 0x01 258 [], node .slave 0x02 258 [0x77]][1]? = some (node .slave 0x02 258 [0x77]) ∧
    (node .slave 0x02 258 [0x77]).constructed = true ∧
    (node .slave 0x02 258 [0x77]).params.wellFormed = true ∧ (node .slave 0x02 258 [0x77]).role = .slave ∧
    addressMatch (node .slave 0x02 258 [0x77]).ownAddr (node .slave 0x03 258 []).ownAddr = true := by
  decide +kernel

/-! ## Witnesses: RESET and the whole machine -/

theorem witness_ResetInstallsTheConfiguration :
    (Role.slave = .slave ∧ 0x0F < (0x10#8).toNat) ∧ (Role.slave = .slave ∧ (0x0F#8).toNat ≤ 0x0F) ∧
      Role.master = .master := by decide

theorem witness_BeforeTheFirstResetOthersAreRefused :
    unbuilt.constructed = false ∧ ∀ role own, Instr.assemble ≠ .reset role own :=
  ⟨rfl, fun _ _ h => by cases h⟩

theorem witness_LaunchStateIsIdleAndLegal :
    Params.wellFormed { cap := 258, masterAddr := 0x0F } = true ∧ (0x0F#8).toNat ≤ 0x0F := by decide

/-- A node with one operation waiting: the data word that completes a frame. -/
def waiting : State :=
  { node .slave 0x01 258 [0x10, 0x00, 0x00] with port := [{ word := 0x000, payload := [] }] }

theorem witness_StepKeepsTheInvariant : waiting.Inv ∧ ∃ t, step waiting = .next t ∧ t.len = 4 :=
  ⟨by decide +kernel, _, rfl, rfl⟩

theorem witness_StepKeepsTheCanonicalMemory : waiting.Inv ∧ ∃ t, step waiting = .next t :=
  ⟨by decide +kernel, _, rfl⟩

theorem witness_NoOperationStopsTheBlock : waiting.Inv ∧ waiting.constructed = true := by decide +kernel

theorem witness_OnlyResetWritesTheConfiguration :
    (∃ t, exec (.ingestData 0x00) waiting = .next t) ∧
      ∀ role own, Instr.ingestData 0x00 ≠ .reset role own :=
  ⟨⟨_, rfl⟩, fun _ _ h => by cases h⟩

theorem witness_FirstByteComesFromAnAddressWordOrARemainder :
    ∀ i ∈ [Instr.ingestAddr 0x1 0x7, .assemble, .send []],
      (node .slave 0x01 258 [0x10, 0x00, 0x00, 0x00, 0x77]).bufferOk ∧
      ((nextState (exec i (node .slave 0x01 258 [0x10, 0x00, 0x00, 0x00, 0x77]))).map fun t =>
        decide (t.len ≠ 0)) = some true := by decide +kernel

theorem witness_OperationsTouchTheBufferThroughTheirPrimitives :
    (node .slave 0x01 1 [0x10]).Holds [0x10] ∧ 1 ≤ (node .slave 0x01 1 [0x10]).params.cap ∧
    ∀ i ∈ [Instr.ingestAddr 0x1 0x0, .ingestAddr 0x2 0x0, .ingestData 0x00, .assemble, .send [],
        .reset .slave 0x10, .reset .slave 0x0F],
      (nextState (exec i (node .slave 0x01 1 [0x10]))).isSome = true := by decide +kernel

theorem witness_PartialFrameStaysUntilClearedOrCompleted :
    (∀ bytes ∈ [[0x10], [0x10, 0x00, 0x00], [0x10, 0xFF]],
      (node .slave 0x01 4 bytes).Holds bytes ∧ bytes ≠ [] ∧
      (nextState (exec .assemble (node .slave 0x01 4 bytes))).isSome = true) ∧
    (∀ p, parseFrame [0x10] ≠ .ok p) ∧ (∀ p, parseFrame [0x10, 0x00, 0x00] ≠ .ok p) ∧
    ∀ p, parseFrame [0x10, 0xFF] ≠ .ok p := by
  refine ⟨by decide +kernel, fun p h => ?_, fun p h => ?_, fun p h => ?_⟩ <;> cases h

theorem witness_NoOperationReadsAnOutput : ∃ t, exec .assemble waiting = .next t := ⟨_, rfl⟩

theorem witness_ConditionsAreThoseOfTheTable :
    after (.ingestData 0x00) (node .slave 0x01 2 [0x10, 0xFF]) =
      some ([], some { result := .response .nack, condition := some .bufferExhausted }) ∧
    after .assemble (node .slave 0x01 258 []) =
      some ([], some { result := .assembled none, condition := some .incomplete }) ∧
    after (.ingestData 0x01) (node .slave 0x01 4 [0x10, 0x00, 0x00]) =
      some ([0x10, 0x00, 0x00, 0x01],
        some { result := .response .nack, condition := some .checksumMismatch }) ∧
    after (.send (List.replicate 254 0x00)) (node .master 0x00 258 []) =
      some ([], some { result := .sent (.payloadTooLarge 254), condition := some (.payloadTooLarge 254) }) ∧
    after (.ingestAddr 0x0 0x0) (node .slave 0x01 258 []) =
      some ([], some { result := .response .noResponse, condition := some (.addressMismatch 0x00) }) ∧
    after (.ingestData 0xFF) (node .slave 0x01 258 [0x10]) =
      some ([0x10, 0xFF], some { result := .response .noResponse, condition := some .malformed }) := by
  decide +kernel

end Sys2Proof.Machine.Tests
end

section
/-! The scope of the block (spec/00_scope.md): what one step is, what an operation may write, and what every step
keeps. The operations are inverted once, into `exec_cases`; the configuration frame and the invariant are read off
its cases. -/

namespace Sys2Proof.Machine

/-! ## One step -/

/-- R11: the operation a step applies is the first one at the port. -/
theorem step_of_port_cons {s : State} {c : Command} {rest : List Command} (h : s.port = c :: rest) :
    step s = exec (decode c) (s.withPort rest) := by
  simp only [step, h]

/-- Log 4: with nothing at the port the block waits. -/
theorem step_of_port_nil {s : State} (h : s.port = []) : step s = .next s := by
  simp only [step, h]

/-- Everything a step can do. -/
theorem step_cases {s t : State} (h : step s = .next t) :
    (s.port = [] ∧ t = s) ∨
      ∃ c rest, s.port = c :: rest ∧ exec (decode c) (s.withPort rest) = .next t := by
  cases hp : s.port with
  | nil =>
    rw [step_of_port_nil hp] at h
    cases h
    exact .inl ⟨rfl, rfl⟩
  | cons c rest =>
    rw [step_of_port_cons hp] at h
    exact .inr ⟨c, rest, rfl, h⟩

/-- Settles O6. -/
theorem stepRunsTheNextCommand : Obligations.StepRunsTheNextCommand := by
  unfold Obligations.StepRunsTheNextCommand
  exact fun s => ⟨fun _ _ => step_of_port_cons, step_of_port_nil⟩

/-! ## What an operation may write -/

/-- What an operation that does not install a configuration may make of the state, up to its output: one use of
one buffer primitive (R45). -/
inductive State.BufferWrite (s : State) : State → Prop
  | keep : s.BufferWrite s
  | clear : s.BufferWrite s.clear
  | append (b : Byte) (room : s.len < s.params.cap) : s.BufferWrite (s.append b)
  | replace (bytes : List Byte) (fits : s.len ≤ s.params.cap → bytes.length ≤ s.params.cap) :
      s.BufferWrite (s.replace bytes)

/-- The only sequences that decode to a frame are an image and what follows it (R106). -/
theorem parseFrame_eq_ok {bytes : List Byte} {p : ParsedFrame} (h : parseFrame bytes = .ok p) :
    ∃ first length lo hi, bytes = first :: length :: (p.payload ++ lo :: hi :: p.remainder) ∧
      length ≠ Config.rejectedLength ∧ p.payload.length = length.toNat ∧
      p.address = addressOfByte first ∧ p.checksum = checksumOf lo hi := by
  rcases frame_shapes bytes with hshort | ⟨first, rest, rfl⟩ | ⟨first, length, rest, rfl, hl, hr⟩ |
    ⟨first, length, payload, lo, hi, rest, rfl, hl, hp⟩
  · match bytes, hshort with
    | [], _ => rw [parseFrame_nil] at h; cases h
    | [b], _ => rw [parseFrame_single] at h; cases h
  · rw [parseFrame_rejected] at h; cases h
  · rw [parseFrame_short hl hr] at h; cases h
  · rw [parseFrame_image hl hp] at h
    cases h
    exact ⟨first, length, lo, hi, rfl, hl, hp, rfl, rfl⟩

theorem parseFrame_remainder_length {bytes : List Byte} {p : ParsedFrame} (h : parseFrame bytes = .ok p) :
    p.remainder.length ≤ bytes.length := by
  obtain ⟨first, length, lo, hi, rfl, -⟩ := parseFrame_eq_ok h
  simp only [List.length_cons, List.length_append]
  omega

theorem State.bufferWrite_pushAfterClear (s : State) (b : Byte) : s.BufferWrite (s.pushAfterClear b) := by
  rcases s.pushAfterClear_cases b with ⟨hcap, h⟩ | ⟨-, h⟩
  · rw [h]
    exact .replace [b] fun _ => hcap
  · rw [h]
    exact .clear

/-- The remainder ASSEMBLE moves to the front fits where the sequence it was read from did. -/
theorem State.bufferWrite_remainder {s : State} {bytes : List Byte} {p : ParsedFrame}
    (hv : s.view = .ok bytes) (hp : parseFrame bytes = .ok p) : s.BufferWrite (s.replace p.remainder) := by
  have hlen : bytes.length = s.len := (State.view_ok hv).1
  have hrem := parseFrame_remainder_length hp
  exact .replace p.remainder fun hcap => by omega

/-- Everything an operation can do: use one buffer primitive, or be a RESET that installs its configuration. -/
theorem exec_cases {i : Instr} {s t : State} (h : exec i s = .next t) :
    (∃ u r c, s.BufferWrite u ∧ t = u.withOutput r c) ∨
      ∃ role own, i = .reset role own ∧ resetRefused role own = false ∧
        t = (s.configure role (installedAddress s.params role own)).clear.withOutput
          (.resetAnswer .done) none := by
  cases i with
  | ingestAddr addr rsv =>
    rcases (execIngestAddr_cases h).2 with ⟨-, ht⟩ | ⟨-, ht⟩
    · exact .inl ⟨_, _, _, s.bufferWrite_pushAfterClear _, ht⟩
    · exact .inl ⟨_, _, _, .clear, ht⟩
  | ingestData data =>
    rcases (execIngestData_cases h).2 with ⟨-, ht⟩ | ⟨-, -, ht⟩ | ⟨-, room, -, ht⟩ |
      ⟨-, room, -, _, -, ht⟩
    · exact .inl ⟨_, _, _, .keep, ht⟩
    · exact .inl ⟨_, _, _, .clear, ht⟩
    · exact .inl ⟨_, _, _, .append data room, ht⟩
    · exact .inl ⟨_, _, _, .append data room, ht⟩
  | assemble =>
    obtain ⟨-, bytes, hv, ⟨p, hp, ht⟩ | ⟨-, ht⟩ | ⟨-, ht⟩⟩ := execAssemble_cases h
    · exact .inl ⟨_, _, _, State.bufferWrite_remainder hv hp, ht⟩
    · exact .inl ⟨_, _, _, .keep, ht⟩
    · exact .inl ⟨_, _, _, .keep, ht⟩
  | send payload =>
    obtain ⟨-, r, c, ht, -⟩ := execSend_cases h
    exact .inl ⟨_, _, _, .keep, ht⟩
  | reset role own =>
    rcases execReset_cases h with ⟨-, ht⟩ | ⟨hr, ht⟩
    · exact .inl ⟨_, _, _, .keep, ht⟩
    · exact .inr ⟨role, own, rfl, hr, ht⟩

/-! ## The configuration -/

/-- A buffer primitive writes `LEN` and `BUF` only. -/
theorem State.BufferWrite.eq_with {s u : State} (h : s.BufferWrite u) :
    u = { s with len := u.len, buf := u.buf } := by
  cases h <;> rfl

/-- Settles O46: a buffer primitive writes no configuration, and an installing RESET no parameter and no port. -/
theorem onlyResetWritesTheConfiguration : Obligations.OnlyResetWritesTheConfiguration := by
  unfold Obligations.OnlyResetWritesTheConfiguration
  intro i s t h
  rcases exec_cases h with ⟨u, r, c, hu, rfl⟩ | ⟨role, own, rfl, -, rfl⟩
  · rw [hu.eq_with]
    exact ⟨rfl, rfl, fun _ => ⟨rfl, rfl, rfl⟩⟩
  · exact ⟨rfl, rfl, fun hi => absurd rfl (hi role own)⟩

/-! ## The invariant -/

@[simp] theorem State.inv_withOutput (s : State) (r : Result) (c : Option Condition) :
    (s.withOutput r c).Inv ↔ s.Inv := Iff.rfl

@[simp] theorem State.inv_withPort (s : State) (cs : List Command) : (s.withPort cs).Inv ↔ s.Inv := Iff.rfl

/-- R33: every buffer primitive leaves `LEN` within the capacity and exactly the bytes below it. -/
theorem State.BufferWrite.bufferOk {s u : State} (h : s.BufferWrite u) (hs : s.bufferOk) : u.bufferOk := by
  have holds := State.holds_of_bufferOk hs
  cases h with
  | keep => exact hs
  | clear => exact State.bufferOk_of_holds s.holds_clear
  | append b room =>
    have hlt : (s.buf.map Prod.snd).length < s.params.cap := holds.2.1 ▸ room
    exact State.bufferOk_of_holds (State.holds_append holds hlt b)
  | replace bytes fits => exact State.bufferOk_of_holds (s.holds_replace (fits hs.1))

theorem State.BufferWrite.inv {s u : State} (h : s.BufferWrite u) (hs : s.Inv) : u.Inv := by
  obtain ⟨hparams, hconfig, hbuffer⟩ := hs
  have hu : u.bufferOk := h.bufferOk hbuffer
  rw [h.eq_with] at hu ⊢
  exact ⟨hparams, hconfig, hu⟩

/-- R28, R191: the address a RESET that is not refused installs fits four bits. -/
theorem legalAddress_installedAddress {p : Params} {role : Role} {own : Byte} (hp : p.wellFormed = true)
    (hr : resetRefused role own = false) : legalAddress (installedAddress p role own) = true := by
  cases role with
  | master => exact (legalAddress_iff _).mpr ((params_wellFormed_iff p).mp hp).2
  | slave => simpa [resetRefused, installedAddress] using hr

/-- R190: a RESET that is not refused leaves a legal configuration and an idle buffer. -/
theorem State.inv_configure_clear {s : State} {role : Role} {own : Byte} (hp : s.params.wellFormed = true)
    (hr : resetRefused role own = false) :
    (s.configure role (installedAddress s.params role own)).clear.Inv := by
  refine ⟨hp, fun _ => ⟨legalAddress_installedAddress hp hr, fun hmaster => ?_⟩,
    State.bufferOk_of_holds (State.holds_clear _)⟩
  have hrole : role = .master := hmaster
  subst hrole
  rfl

/-- Every operation keeps the invariant. -/
theorem exec_inv {i : Instr} {s t : State} (hs : s.Inv) (h : exec i s = .next t) : t.Inv := by
  rcases exec_cases h with ⟨u, r, c, hu, rfl⟩ | ⟨role, own, -, hr, rfl⟩
  · exact (State.inv_withOutput u r c).mpr (hu.inv hs)
  · exact (State.inv_withOutput _ _ _).mpr (State.inv_configure_clear hs.1 hr)

/-- Settles O43. -/
theorem stepKeepsTheInvariant : Obligations.StepKeepsTheInvariant := by
  unfold Obligations.StepKeepsTheInvariant
  intro s t hs h
  rcases step_cases h with ⟨-, rfl⟩ | ⟨c, rest, -, hx⟩
  · exact hs
  · exact exec_inv ((State.inv_withPort s rest).mpr hs) hx

end Sys2Proof.Machine
end

section
/-! The state of the block (spec/10_state.md): the launch state, what is derived from `LEN` and `BUF` (phase and
status), where the first byte held comes from, which operation answers, and that the outputs and the port are no
part of what an operation reads. -/

namespace Sys2Proof.Machine

/-! ## Responses and status -/

/-- Settles O52. -/
theorem responseImages : Obligations.ResponseImages := ⟨rfl, rfl, rfl⟩

theorem State.inProgress_iff (s : State) : s.inProgress = true ↔ 0 < s.len := decide_eq_true_iff

theorem State.idle_iff (s : State) : s.idle = true ↔ s.len = 0 := beq_iff_eq

theorem State.full_iff (s : State) : s.full = true ↔ s.len = s.params.cap := beq_iff_eq

theorem State.inProgress_eq_not_idle (s : State) : s.inProgress = !s.idle := by
  rw [Bool.eq_iff_iff, Bool.not_eq_true', ← Bool.not_eq_true, s.inProgress_iff, s.idle_iff]
  exact Nat.pos_iff_ne_zero

/-- Settles O53. -/
theorem statusIsReadFromLen : Obligations.StatusIsReadFromLen := by
  unfold Obligations.StatusIsReadFromLen
  exact fun s => ⟨s.inProgress_iff, s.idle_iff, s.full_iff, s.inProgress_eq_not_idle⟩

/-! ## The phase -/

theorem State.phase_of_holds {s : State} {bytes : List Byte} (h : s.Holds bytes) :
    s.phase = .ok (phaseOf bytes) := by
  simp only [State.phase, State.view_of_holds h, Except.map]

theorem phaseOf_rejected (first : Byte) (rest : List Byte) :
    phaseOf (first :: Config.rejectedLength :: rest) = .badLen := by
  simp [phaseOf]

theorem phaseOf_payload {first length : Byte} {rest : List Byte} (hl : length ≠ Config.rejectedLength)
    (h : rest.length < length.toNat) : phaseOf (first :: length :: rest) = .payload := by
  simp only [phaseOf, if_neg hl, if_pos h]

theorem phaseOf_checksum {first length : Byte} {rest : List Byte} (hl : length ≠ Config.rejectedLength)
    (h : length.toNat ≤ rest.length) (h' : rest.length < length.toNat + 2) :
    phaseOf (first :: length :: rest) = .checksum := by
  simp only [phaseOf, if_neg hl, if_neg (Nat.not_lt.mpr h), if_pos h']

theorem phaseOf_complete {first length : Byte} {rest : List Byte} (hl : length ≠ Config.rejectedLength)
    (h : length.toNat + 2 ≤ rest.length) : phaseOf (first :: length :: rest) = .complete := by
  have hp : ¬ rest.length < length.toNat := by omega
  simp only [phaseOf, if_neg hl, if_neg hp, if_neg (Nat.not_lt.mpr h)]

/-- A whole image is enough for the decode to succeed, whatever follows it (R106). -/
theorem parseFrame_complete {first length : Byte} {rest : List Byte} (hl : length ≠ Config.rejectedLength)
    (h : length.toNat + 2 ≤ rest.length) : ∃ p, parseFrame (first :: length :: rest) = .ok p := by
  have hdrop : 2 ≤ (rest.drop length.toNat).length := by rw [List.length_drop]; omega
  match hd : rest.drop length.toNat, hdrop with
  | lo :: hi :: tail, _ =>
    have htake : (rest.take length.toNat).length = length.toNat := List.length_take_of_le (by omega)
    have himage := parseFrame_image (first := first) (lo := lo) (hi := hi) (rest := tail) hl htake
    rw [← hd, List.take_append_drop] at himage
    exact ⟨_, himage⟩

/-- Settles O15. With two bytes or more, the four phases are the ranges of the number of bytes after the length
byte, and the decode has one outcome in each. -/
theorem phaseIsThePositionOfTheParse : Obligations.PhaseIsThePositionOfTheParse := by
  unfold Obligations.PhaseIsThePositionOfTheParse
  intro s bytes h
  refine ⟨phaseOf bytes, State.phase_of_holds h, ?_⟩
  have hlen : s.len = bytes.length := h.2.1
  match bytes with
  | [] => simp [hlen, phaseOf, parseFrame_nil]
  | [b] => simp [hlen, phaseOf, parseFrame_single]
  | first :: length :: rest =>
    have hread : s.bufRead 1 = .ok length := State.bufRead_of_holds h (by simp)
    have hrest : s.len = rest.length + 2 := hlen
    have h0 : s.len ≠ 0 := by omega
    have h1 : s.len ≠ 1 := by omega
    have h2 : 2 ≤ s.len := by omega
    by_cases hl : length = Config.rejectedLength
    · subst hl
      rw [phaseOf_rejected, parseFrame_rejected]
      simp [hread, h0, h1, h2]
    · have hff : length ≠ 255#8 := hl
      rcases lt_or_ge s.len (2 + length.toNat) with hpayload | hpayload
      · have hshort : ¬ 4 + length.toNat ≤ s.len := by omega
        rw [phaseOf_payload hl (by omega), parseFrame_short (rest := rest) hl (by omega)]
        simp [hread, hff, h0, h1, h2, hpayload, hshort]
      · rcases lt_or_ge s.len (4 + length.toNat) with hshort | hwhole
        · rw [phaseOf_checksum hl (by omega) (by omega), parseFrame_short (rest := rest) hl (by omega)]
          simp [hread, hff, h0, h1, h2, hpayload, hshort]
        · obtain ⟨p, hp⟩ := parseFrame_complete (first := first) (rest := rest) hl (by omega)
          rw [phaseOf_complete hl (by omega), hp]
          simp [hread, hff, h0, h1, h2, hpayload, hwhole]

/-! ## The launch state -/

theorem resetRefused_of_legal {role : Role} {own : Byte} (h : own.toNat ≤ 0x0F) :
    resetRefused role own = false := by
  simp [resetRefused, (legalAddress_iff own).mpr h]

/-- R35: the launch state is one an installing RESET leaves, so it meets the invariant. -/
theorem State.launch_inv {p : Params} {role : Role} {own : Byte} (hp : p.wellFormed = true)
    (hr : resetRefused role own = false) : (State.launch p role (installedAddress p role own)).Inv :=
  State.inv_configure_clear (s := State.launch p role (installedAddress p role own)) hp hr

theorem State.launch_holds (p : Params) (role : Role) (own : Byte) : (State.launch p role own).Holds [] :=
  State.holds_clear (State.launch p role own)

/-- R193: the RESET a launch state stands for finds nothing to change. -/
theorem execReset_launch {p : Params} {role : Role} {own : Byte} (hr : resetRefused role own = false) :
    execReset role own (State.launch p role (installedAddress p role own)) =
      .next ((State.launch p role (installedAddress p role own)).withOutput (.resetAnswer .done) none) := by
  rw [execReset, hr]
  rfl

/-- Settles O42. -/
theorem launchStateIsIdleAndLegal : Obligations.LaunchStateIsIdleAndLegal := by
  unfold Obligations.LaunchStateIsIdleAndLegal
  refine ⟨fun p role own hp hown => ?_, ?_, State.launch_holds _ _ _, rfl⟩
  · have hr : resetRefused role own = false := resetRefused_of_legal hown
    exact ⟨State.launch_inv hp hr, State.launch_holds _ _ _, State.phase_of_holds (State.launch_holds _ _ _),
      rfl, execReset_launch hr⟩
  · exact State.launch_inv (p := Config.referenceParams) (role := .slave) (own := 0x01) (by decide) (by decide)

/-! ## The memory after a step -/

/-- Settles O44: the invariant a step keeps lists exactly the bytes below `LEN`. -/
theorem stepKeepsTheCanonicalMemory : Obligations.StepKeepsTheCanonicalMemory := by
  unfold Obligations.StepKeepsTheCanonicalMemory
  intro s t hs h
  obtain ⟨-, -, hbuffer⟩ := stepKeepsTheInvariant s t hs h
  exact ⟨State.buf_wf_of_bufferOk hbuffer, State.view_of_bufferOk hbuffer⟩

/-! ## Who answers -/

@[simp] theorem Output.response_eq_some (result : Result) (c : Option Condition) (r : Response) :
    Output.response (some { result := result, condition := c }) = some r ↔ result = .response r := by
  cases result <;> simp [Output.response]

/-- Settles O26: INGEST.ADDR answers nothing, the results of the others are no responses, and of the four outcomes
of INGEST.DATA only an overflow and a parse of a Slave answer. -/
theorem onlyASlaveIngestingDataAnswers : Obligations.OnlyASlaveIngestingDataAnswers := by
  unfold Obligations.OnlyASlaveIngestingDataAnswers
  intro i s t h hanswer
  cases i with
  | ingestAddr addr rsv =>
    rcases (execIngestAddr_cases h).2 with ⟨-, rfl⟩ | ⟨-, rfl⟩ <;> simp at hanswer
  | ingestData data =>
    rcases (execIngestData_cases h).2 with ⟨-, rfl⟩ | ⟨hlen, -, rfl⟩ | ⟨-, -, -, rfl⟩ | ⟨hlen, -, hrole, -⟩
    · simp at hanswer
    · cases hrole : s.role with
      | master => simp [overflowResponse, hrole] at hanswer
      | slave => exact ⟨rfl, hlen, data, rfl⟩
    · simp at hanswer
    · exact ⟨hrole, hlen, data, rfl⟩
  | assemble =>
    obtain ⟨-, bytes, -, ⟨p, -, rfl⟩ | ⟨-, rfl⟩ | ⟨-, rfl⟩⟩ := execAssemble_cases h <;>
      simp at hanswer
  | send payload =>
    obtain ⟨-, r, c, rfl, -⟩ := execSend_cases h
    simp at hanswer
  | reset role own =>
    rcases execReset_cases h with ⟨-, rfl⟩ | ⟨-, rfl⟩ <;> simp at hanswer

/-! ## The first byte held -/

@[simp] theorem State.bufRead_withOutput (s : State) (r : Result) (c : Option Condition) (i : Nat) :
    (s.withOutput r c).bufRead i = s.bufRead i := State.bufRead_congr rfl rfl i

/-- An append writes at `LEN` and nowhere else (R42). -/
theorem State.bufRead_append_other {s : State} {i : Nat} (b : Byte) (h : i ≠ s.len) :
    (s.append b).bufRead i = s.bufRead i := by
  simp only [State.bufRead, State.append_params, State.append_buf, Memory.read_write_other s.buf b h]

/-- Index 0 of what follows an image is index `4 + L` of the whole (R143). -/
theorem bufRead_of_remainder {s t : State} {bytes : List Byte} {p : ParsedFrame} (hs : s.Holds bytes)
    (hp : parseFrame bytes = .ok p) (ht : t.Holds p.remainder) (hne : t.len ≠ 0) :
    t.len < s.len ∧ ∃ l, s.bufRead 1 = .ok l ∧ t.bufRead 0 = s.bufRead (4 + l.toNat) := by
  obtain ⟨first, length, lo, hi, rfl, -, hpayload, -⟩ := parseFrame_eq_ok hp
  have hslen := hs.2.1
  have htlen := ht.2.1
  simp only [List.length_cons, List.length_append] at hslen
  refine ⟨by omega, length, State.bufRead_of_holds hs (by simp), ?_⟩
  rw [State.bufRead_of_holds ht (by omega), State.bufRead_of_holds hs (by simp; omega)]
  simp [← hpayload, Nat.add_comm 4]

/-- Settles O47: an operation that leaves the buffer neither empty nor as it was is a matching INGEST.ADDR, an
append behind the first byte, or an ASSEMBLE that took a frame. -/
theorem firstByteComesFromAnAddressWordOrARemainder :
    Obligations.FirstByteComesFromAnAddressWordOrARemainder := by
  unfold Obligations.FirstByteComesFromAnAddressWordOrARemainder
  intro i s t hs h hne
  cases i with
  | ingestAddr addr rsv =>
    rcases (execIngestAddr_cases h).2 with ⟨hmatch, rfl⟩ | ⟨-, rfl⟩
    · rcases s.pushAfterClear_cases (addressByte addr rsv) with ⟨hcap, hpush⟩ | ⟨-, hpush⟩
      · have hholds : (s.replace [addressByte addr rsv]).Holds [addressByte addr rsv] := s.holds_replace hcap
        refine .inl ⟨addr, rsv, rfl, hmatch, by simp [hpush], ?_⟩
        rw [State.bufRead_withOutput, hpush]
        exact State.bufRead_of_holds hholds Nat.one_pos
      · simp [hpush] at hne
    · exact absurd rfl hne
  | ingestData data =>
    have append_keeps_first (hlen : s.len ≠ 0) : (s.append data).bufRead 0 = s.bufRead 0 :=
      State.bufRead_append_other data hlen.symm
    rcases (execIngestData_cases h).2 with ⟨hidle, rfl⟩ | ⟨-, -, rfl⟩ | ⟨hlen, -, -, rfl⟩ |
      ⟨hlen, -, -, _, -, rfl⟩
    · exact absurd hidle hne
    · exact absurd rfl hne
    · exact .inr (.inr ⟨hlen, append_keeps_first hlen⟩)
    · exact .inr (.inr ⟨hlen, append_keeps_first hlen⟩)
  | assemble =>
    obtain ⟨-, bytes, hview, ⟨p, hp, rfl⟩ | ⟨-, rfl⟩ | ⟨-, rfl⟩⟩ := execAssemble_cases h
    · obtain rfl : s.buf.map Prod.snd = bytes := Except.ok.inj ((State.view_of_bufferOk hs).symm.trans hview)
      have hholds := State.holds_of_bufferOk hs
      have hfits : p.remainder.length ≤ s.params.cap :=
        (parseFrame_remainder_length hp).trans hholds.2.2
      exact .inr (.inl ⟨rfl, bufRead_of_remainder hholds hp (s.holds_replace hfits) hne⟩)
    · exact .inr (.inr ⟨hne, State.bufRead_withOutput _ _ _ 0⟩)
    · exact .inr (.inr ⟨hne, State.bufRead_withOutput _ _ _ 0⟩)
  | send payload =>
    obtain ⟨-, r, c, rfl, -⟩ := execSend_cases h
    exact .inr (.inr ⟨hne, State.bufRead_withOutput _ _ _ 0⟩)
  | reset role own =>
    rcases execReset_cases h with ⟨-, rfl⟩ | ⟨-, rfl⟩
    · exact .inr (.inr ⟨hne, State.bufRead_withOutput _ _ _ 0⟩)
    · exact absurd rfl hne

/-! ## What no operation reads

The output and the port are replaced together, and every operation is shown to carry the new port to its next state
and to forget the new output: R22 and R34 in one equation. -/

/-- The state with another port and another output. -/
def State.withEnv (s : State) (cs : List Command) (o : Option Output) : State :=
  { s with port := cs, output := o }

/-- The answer with another port in its next state, if it has one. -/
def Answer.withPort (cs : List Command) : Answer → Answer
  | .next t => .next (t.withPort cs)
  | .fault f => .fault f
  | .refused r => .refused r

theorem State.clear_withEnv (s : State) (cs : List Command) (o : Option Output) :
    (s.withEnv cs o).clear = s.clear.withEnv cs o := rfl

theorem State.push_withEnv (s : State) (cs : List Command) (o : Option Output) (b : Byte) :
    (s.withEnv cs o).push b = (s.push b).map (State.withEnv · cs o) := by
  rcases s.push_cases b with ⟨hfull, hpush⟩ | ⟨hroom, hpush⟩
  · rw [hpush]
    exact if_pos hfull
  · rw [hpush]
    exact if_neg (Nat.not_le.mpr hroom)

theorem State.pushAfterClear_withEnv (s : State) (cs : List Command) (o : Option Output) (b : Byte) :
    (s.withEnv cs o).pushAfterClear b = (s.pushAfterClear b).withEnv cs o := by
  simp only [State.pushAfterClear, State.clear_withEnv, State.push_withEnv, State.clear_clear]
  cases s.clear.push b <;> rfl

theorem State.whenConstructed_withEnv {s : State} {cs : List Command} {o : Option Output} {k k' : Answer}
    (h : k' = Answer.withPort cs k) :
    (s.withEnv cs o).whenConstructed k' = Answer.withPort cs (s.whenConstructed k) := by
  subst h
  cases hc : s.constructed with
  | true =>
    rw [State.whenConstructed_of hc]
    exact State.whenConstructed_of hc _
  | false =>
    rw [State.whenConstructed_of_not hc]
    exact State.whenConstructed_of_not hc _

theorem State.withView_withEnv {s : State} {cs : List Command} {o : Option Output} {k k' : List Byte → Answer}
    (h : ∀ bytes, k' bytes = Answer.withPort cs (k bytes)) :
    (s.withEnv cs o).withView k' = Answer.withPort cs (s.withView k) := by
  have hview : (s.withEnv cs o).view = s.view := State.view_congr rfl rfl rfl
  unfold State.withView
  rw [hview]
  cases s.view with
  | ok bytes => exact h bytes
  | error f => rfl

theorem execIngestAddr_withEnv (addr rsv : Nibble) (s : State) (cs : List Command) (o : Option Output) :
    execIngestAddr addr rsv (s.withEnv cs o) = Answer.withPort cs (execIngestAddr addr rsv s) := by
  refine State.whenConstructed_withEnv ?_
  rw [State.pushAfterClear_withEnv, apply_ite (Answer.withPort cs)]
  rfl

theorem execIngestData_withEnv (data : Byte) (s : State) (cs : List Command) (o : Option Output) :
    execIngestData data (s.withEnv cs o) = Answer.withPort cs (execIngestData data s) := by
  refine State.whenConstructed_withEnv ?_
  rw [State.push_withEnv, apply_ite (Answer.withPort cs)]
  refine if_congr Iff.rfl rfl ?_
  cases s.push data with
  | none => rfl
  | some t =>
    cases hrole : s.role with
    | master => simp only [State.withEnv, hrole, Option.map]; rfl
    | slave =>
      simp only [State.withEnv, hrole, Option.map]
      exact State.withView_withEnv fun bytes => rfl

theorem execAssemble_withEnv (s : State) (cs : List Command) (o : Option Output) :
    execAssemble (s.withEnv cs o) = Answer.withPort cs (execAssemble s) := by
  refine State.whenConstructed_withEnv (State.withView_withEnv fun bytes => ?_)
  cases parseFrameOwned bytes <;> rfl

theorem execSend_withEnv (payload : List Byte) (s : State) (cs : List Command) (o : Option Output) :
    execSend payload (s.withEnv cs o) = Answer.withPort cs (execSend payload s) := by
  refine State.whenConstructed_withEnv ?_
  rw [apply_ite (Answer.withPort cs)]
  rfl

theorem execReset_withEnv (role : Role) (own : Byte) (s : State) (cs : List Command) (o : Option Output) :
    execReset role own (s.withEnv cs o) = Answer.withPort cs (execReset role own s) := by
  rw [execReset, execReset, apply_ite (Answer.withPort cs)]
  rfl

/-- No operation reads the port or the output: the port is handed on, the output forgotten. -/
theorem exec_withEnv (i : Instr) (s : State) (cs : List Command) (o : Option Output) :
    exec i (s.withEnv cs o) = Answer.withPort cs (exec i s) := by
  cases i with
  | ingestAddr addr rsv => exact execIngestAddr_withEnv addr rsv s cs o
  | ingestData data => exact execIngestData_withEnv data s cs o
  | assemble => exact execAssemble_withEnv s cs o
  | send payload => exact execSend_withEnv payload s cs o
  | reset role own => exact execReset_withEnv role own s cs o

/-- An operation leaves the port as it finds it, so putting the same port back changes nothing. -/
theorem exec_withPort_self (i : Instr) (s : State) : Answer.withPort s.port (exec i s) = exec i s := by
  cases h : exec i s with
  | next t =>
    obtain ⟨-, hport, -⟩ := onlyResetWritesTheConfiguration i s t h
    rw [← hport]
    rfl
  | fault f => rfl
  | refused r => rfl

/-- Settles O50. -/
theorem noOperationReadsAnOutput : Obligations.NoOperationReadsAnOutput := by
  unfold Obligations.NoOperationReadsAnOutput
  intro i s r c cs
  constructor
  · exact (exec_withEnv i s s.port (some { result := r, condition := c })).trans (exec_withPort_self i s)
  · intro t h
    exact (exec_withEnv i s cs s.output).trans (congrArg (Answer.withPort cs) h)

end Sys2Proof.Machine
end

section
/-! The buffer as memory (spec/20_memory.md): what the four primitives do to the bytes held, what a full buffer can
hold, and what each operation may make of them. -/

namespace Sys2Proof.Machine

/-! ## The primitives -/

theorem State.bufRead_of_getElem? {s : State} {bytes : List Byte} {i : Nat} {b : Byte} (h : s.Holds bytes)
    (hi : bytes[i]? = some b) : s.bufRead i = .ok b := by
  obtain ⟨hlt, rfl⟩ := List.getElem?_eq_some_iff.mp hi
  exact State.bufRead_of_holds h hlt

/-- R42: `full`. -/
theorem State.push_of_full {s : State} (b : Byte) (h : s.params.cap ≤ s.len) : s.push b = none := if_pos h

theorem State.push_of_room {s : State} (b : Byte) (h : s.len < s.params.cap) :
    s.push b = some (s.append b) := if_neg (Nat.not_le.mpr h)

/-- R42 on the whole state: the byte goes behind the bytes held, and only `LEN` and `BUF` are written. -/
theorem State.append_eq_of_holds {s : State} {bytes : List Byte} (h : s.Holds bytes)
    (hlt : bytes.length < s.params.cap) (b : Byte) :
    s.append b = { s with len := s.len + 1, buf := Memory.ofBytes 0 (bytes ++ [b]) } := by
  have hbuf : (s.append b).buf = Memory.ofBytes 0 (bytes ++ [b]) := (State.holds_append h hlt b).1
  rw [← hbuf]
  rfl

/-- Settles O16. -/
theorem bufferPrimitives : Obligations.BufferPrimitives := by
  unfold Obligations.BufferPrimitives
  intro s bytes h
  have hlen : s.len = bytes.length := h.2.1
  refine ⟨⟨State.view_of_holds h, hlen.symm, fun _ _ => State.bufRead_of_getElem? h⟩,
    ⟨s.holds_clear, rfl⟩, fun b hfull => State.push_of_full b hfull.ge, fun b hroom => ?_,
    fun _ => s.holds_replace⟩
  rw [State.push_of_room b hroom, State.append_eq_of_holds h (hlen ▸ hroom) b]

/-! ## A full buffer -/

/-- R110: a length byte the deframer does not reject is at most `MAX_RX_LEN`. -/
theorem toNat_le_maxRxLen {length : Byte} (h : length ≠ Config.rejectedLength) :
    length.toNat ≤ Config.maxRxLen := by
  have hne : length.toNat ≠ 255 := fun e => h (BitVec.eq_of_toNat_eq e)
  have hlt : length.toNat < 256 := length.isLt
  show length.toNat ≤ 254
  omega

/-- R47: no frame image is longer than 258 bytes, so a decode of that many is not waiting for more. -/
theorem parseFrame_ne_incomplete {bytes : List Byte} (h : Config.minCap ≤ bytes.length) :
    parseFrame bytes ≠ .incomplete := by
  have h258 : 258 ≤ bytes.length := h
  rcases frame_shapes bytes with hshort | ⟨first, rest, rfl⟩ | ⟨first, length, rest, rfl, hl, hr⟩ |
    ⟨first, length, payload, lo, hi, rest, rfl, hl, hp⟩
  · omega
  · rw [parseFrame_rejected]
    nofun
  · have hmax : length.toNat ≤ 254 := toNat_le_maxRxLen hl
    simp only [List.length_cons] at h258
    omega
  · rw [parseFrame_image hl hp]
    nofun

/-- Settles O23. -/
theorem fullBufferIsNeverMidFrame : Obligations.FullBufferIsNeverMidFrame := by
  unfold Obligations.FullBufferIsNeverMidFrame
  intro s bytes hparams ⟨_, hlen, _⟩ hfull
  have hcap : 258 ≤ s.params.cap := ((params_wellFormed_iff s.params).mp hparams).1
  exact parseFrame_ne_incomplete (show 258 ≤ bytes.length by omega)

/-! ## What each operation makes of the bytes held -/

theorem execIngestAddr_holds {addr rsv : Nibble} {s t : State} (hcap : 1 ≤ s.params.cap)
    (h : execIngestAddr addr rsv s = .next t) : t.Holds [] ∨ t.Holds [addressByte addr rsv] := by
  rcases (execIngestAddr_cases h).2 with ⟨-, rfl⟩ | ⟨-, rfl⟩
  · rw [s.pushAfterClear_eq _ hcap]
    exact .inr (s.holds_replace hcap)
  · exact .inl s.holds_clear

/-- R126, R127: only a full buffer is cleared by a data word. -/
theorem execIngestData_holds {data : Byte} {s t : State} {bytes : List Byte} (hs : s.Holds bytes)
    (h : execIngestData data s = .next t) :
    t.Holds bytes ∨ (s.params.cap ≤ s.len ∧ t.Holds []) ∨ t.Holds (bytes ++ [data]) := by
  have holds_append (room : s.len < s.params.cap) : (s.append data).Holds (bytes ++ [data]) :=
    State.holds_append hs (hs.2.1 ▸ room) data
  rcases (execIngestData_cases h).2 with ⟨-, rfl⟩ | ⟨-, full, rfl⟩ | ⟨-, room, -, rfl⟩ |
    ⟨-, room, -, _, -, rfl⟩
  · exact .inl hs
  · exact .inr (.inl ⟨full, s.holds_clear⟩)
  · exact .inr (.inr (holds_append room))
  · exact .inr (.inr (holds_append room))

/-- R140, R142: ASSEMBLE takes a whole image from the front, or nothing. -/
theorem execAssemble_holds {s t : State} {bytes : List Byte} (hs : s.Holds bytes)
    (h : execAssemble s = .next t) :
    t.Holds bytes ∨ ∃ p, parseFrame bytes = .ok p ∧ t.Holds p.remainder := by
  obtain ⟨-, viewed, hview, hcases⟩ := execAssemble_cases h
  obtain rfl : bytes = viewed := Except.ok.inj ((State.view_of_holds hs).symm.trans hview)
  rcases hcases with ⟨p, hp, rfl⟩ | ⟨-, rfl⟩ | ⟨-, rfl⟩
  · exact .inr ⟨p, hp, s.holds_replace ((parseFrame_remainder_length hp).trans hs.2.2)⟩
  · exact .inl hs
  · exact .inl hs

theorem execSend_holds {payload : List Byte} {s t : State} {bytes : List Byte} (hs : s.Holds bytes)
    (h : execSend payload s = .next t) : t.Holds bytes := by
  obtain ⟨-, r, c, rfl, -⟩ := execSend_cases h
  exact hs

theorem execReset_holds {role : Role} {own : Byte} {s t : State} {bytes : List Byte} (hs : s.Holds bytes)
    (h : execReset role own s = .next t) : t.Holds bytes ∨ t.Holds [] := by
  rcases execReset_cases h with ⟨-, rfl⟩ | ⟨-, rfl⟩
  · exact .inl hs
  · exact .inr (State.holds_clear _)

/-- R106: what a decode leaves over stands at the end of the sequence. -/
theorem parseFrame_remainder_suffix {bytes : List Byte} {p : ParsedFrame} (h : parseFrame bytes = .ok p) :
    ∃ taken, bytes = taken ++ p.remainder := by
  obtain ⟨first, length, lo, hi, rfl, -⟩ := parseFrame_eq_ok h
  exact ⟨first :: length :: (p.payload ++ [lo, hi]), by simp⟩

/-- Settles O48. -/
theorem operationsTouchTheBufferThroughTheirPrimitives :
    Obligations.OperationsTouchTheBufferThroughTheirPrimitives := by
  unfold Obligations.OperationsTouchTheBufferThroughTheirPrimitives
  intro i s t bytes hs hcap h
  cases i with
  | ingestAddr addr rsv =>
    rcases execIngestAddr_holds hcap h with ht | ht
    · exact ⟨_, ht, .inl rfl⟩
    · exact ⟨_, ht, .inr rfl⟩
  | ingestData data =>
    rcases execIngestData_holds hs h with ht | ⟨-, ht⟩ | ht
    · exact ⟨_, ht, .inl rfl⟩
    · exact ⟨_, ht, .inr (.inl rfl)⟩
    · exact ⟨_, ht, .inr (.inr rfl)⟩
  | assemble =>
    rcases execAssemble_holds hs h with ht | ⟨p, hp, ht⟩
    · exact ⟨_, ht, [], rfl⟩
    · exact ⟨_, ht, parseFrame_remainder_suffix hp⟩
  | send payload => exact ⟨_, execSend_holds hs h, rfl⟩
  | reset role own =>
    rcases execReset_holds hs h with ht | ht
    · exact ⟨_, ht, .inl rfl⟩
    · exact ⟨_, ht, .inr rfl⟩

end Sys2Proof.Machine
end

section
/-! The encoding (spec/30_encoding.md): the fields of a command word as bits and as numbers, the decoder by field
and the encoder by operation, units, and the ranges of a Frame. -/

namespace Sys2Proof

/-! ## The fields of a command word -/

/-- Bit 8 of nine is the one above a byte. -/
theorem getLsbD_eight_ofBool_append (b : Bool) (low : Byte) : (BitVec.ofBool b ++ low).getLsbD 8 = b := by
  rw [BitVec.getLsbD_append, if_neg (by decide)]
  cases b <;> rfl

/-- The command word with these fields (R65). -/
def CommandWord.ofFields (op : BitVec 2) (bit8 : Bool) (low : Byte) : CommandWord :=
  op ++ BitVec.ofBool bit8 ++ low

@[simp] theorem CommandWord.op_ofFields (op : BitVec 2) (bit8 : Bool) (low : Byte) :
    (CommandWord.ofFields op bit8 low).op = op :=
  (BitVec.extractLsb'_append_eq_of_le (by decide)).trans BitVec.extractLsb'_append_eq_left

@[simp] theorem CommandWord.bit8_ofFields (op : BitVec 2) (bit8 : Bool) (low : Byte) :
    (CommandWord.ofFields op bit8 low).bit8 = bit8 := by
  rw [CommandWord.bit8, CommandWord.ofFields, BitVec.append_assoc, BitVec.getLsbD_cast, BitVec.getLsbD_append,
    if_pos (by decide)]
  exact getLsbD_eight_ofBool_append bit8 low

@[simp] theorem CommandWord.low_ofFields (op : BitVec 2) (bit8 : Bool) (low : Byte) :
    (CommandWord.ofFields op bit8 low).low = low :=
  BitVec.extractLsb'_append_eq_right

/-- Bits of the low byte are the same bits of the word. -/
theorem CommandWord.extractLsb'_low (w : CommandWord) {start n : Nat} (h : start + n ≤ 8) :
    w.low.extractLsb' start n = w.extractLsb' start n := by
  apply BitVec.eq_of_getLsbD_eq
  intro i hi
  have hlt : start + i < 8 := by omega
  simp [CommandWord.low, hi, hlt]

/-- The three fields are the whole word. -/
theorem CommandWord.ofFields_self (w : CommandWord) : CommandWord.ofFields w.op w.bit8 w.low = w := by
  have hbit : BitVec.ofBool (w.getLsbD 8) = w.extractLsb' 8 1 := by
    apply BitVec.eq_of_getLsbD_eq
    intro i hi
    obtain rfl : i = 0 := by omega
    simp
  unfold CommandWord.ofFields CommandWord.op CommandWord.bit8 CommandWord.low
  have hhigh : w.extractLsb' 9 2 ++ w.extractLsb' 8 1 = w.extractLsb' 8 3 :=
    BitVec.extractLsb'_append_extractLsb'_eq_extractLsb' rfl
  have hall : w.extractLsb' 8 3 ++ w.extractLsb' 0 8 = w.extractLsb' 0 11 :=
    BitVec.extractLsb'_append_extractLsb'_eq_extractLsb' rfl
  rw [hbit, hhigh, hall, BitVec.extractLsb'_eq_self]

theorem CommandWord.toNat_op (w : CommandWord) : w.op.toNat = w.toNat / 512 := by
  have hlt : w.toNat < 2048 := w.isLt
  rw [CommandWord.op, BitVec.extractLsb'_toNat, Nat.shiftRight_eq_div_pow]
  omega

/-- The operation a word selects, by quotient. -/
theorem CommandWord.op_eq_ofNat {w : CommandWord} {k : Nat} (h : w.toNat / 512 = k) :
    w.op = BitVec.ofNat 2 k := by
  rw [← h, ← CommandWord.toNat_op, BitVec.ofNat_toNat, BitVec.setWidth_eq]

theorem CommandWord.bit8_eq_decide (w : CommandWord) : w.bit8 = decide (w.toNat / 256 % 2 = 1) :=
  (BitVec.testBit_toNat w).symm.trans Nat.testBit_eq_decide_div_mod_eq

theorem CommandWord.low_eq_ofNat (w : CommandWord) : w.low = BitVec.ofNat 8 w.toNat := by
  apply BitVec.eq_of_toNat_eq
  rw [CommandWord.low, BitVec.extractLsb'_toNat, BitVec.toNat_ofNat, Nat.shiftRight_zero]

/-! ## The two nibbles of an address byte -/

/-- R61: the upper nibble of an address byte is its address field. -/
@[simp] theorem extractLsb'_four_addressByte (addr rsv : Nibble) :
    (Machine.addressByte addr rsv).extractLsb' 4 4 = addr := BitVec.extractLsb'_append_eq_left

@[simp] theorem extractLsb'_zero_addressByte (addr rsv : Nibble) :
    (Machine.addressByte addr rsv).extractLsb' 0 4 = rsv := BitVec.extractLsb'_append_eq_right

@[simp] theorem addressByte_extractLsb' (b : Byte) :
    Machine.addressByte (b.extractLsb' 4 4) (b.extractLsb' 0 4) = b :=
  (BitVec.extractLsb'_append_extractLsb'_eq_extractLsb' rfl).trans BitVec.extractLsb'_eq_self

/-! ## The decoder, by field -/

/-- R75: an address word's nibbles are those of the low byte. -/
theorem decode_ingestAddr {c : Command} (hop : c.word.op = 0b00) (hmarker : c.word.bit8 = true) :
    decode c = .ingestAddr (c.word.low.extractLsb' 4 4) (c.word.low.extractLsb' 0 4) := by
  rw [decode, if_pos hop, if_pos hmarker, c.word.extractLsb'_low (by decide),
    c.word.extractLsb'_low (by decide)]

theorem decode_ingestData {c : Command} (hop : c.word.op = 0b00) (hmarker : c.word.bit8 = false) :
    decode c = .ingestData c.word.low := by
  simp [decode, hop, hmarker]

theorem decode_assemble {c : Command} (hop : c.word.op = 0b01) : decode c = .assemble := by
  simp [decode, hop]

theorem decode_send {c : Command} (hop : c.word.op = 0b10) : decode c = .send c.payload := by
  simp [decode, hop]

theorem decode_reset {c : Command} (hop : c.word.op = 0b11) :
    decode c = .reset (Role.ofBit c.word.bit8) c.word.low := by
  simp [decode, hop]

/-! ## The encoder, by operation -/

theorem encode_ingestAddr (addr rsv : Nibble) : encode (.ingestAddr addr rsv) =
    { word := .ofFields 0b00 true (Machine.addressByte addr rsv), payload := [] } := by
  rw [encode, CommandWord.ofFields, Machine.addressByte, BitVec.append_assoc]
  rfl

theorem encode_ingestData (data : Byte) :
    encode (.ingestData data) = { word := .ofFields 0b00 false data, payload := [] } := rfl

theorem encode_assemble : encode .assemble = { word := .ofFields 0b01 false 0, payload := [] } := by decide

theorem encode_send (payload : List Byte) :
    encode (.send payload) = { word := .ofFields 0b10 false 0, payload := payload } := by
  have hword : 0b10#2 ++ 0#9 = CommandWord.ofFields 0b10 false 0 := by decide
  rw [encode, hword]

theorem encode_reset (role : Role) (own : Byte) :
    encode (.reset role own) = { word := .ofFields 0b11 role.bit own, payload := [] } := rfl

@[simp] theorem Role.ofBit_bit (role : Role) : Role.ofBit role.bit = role := by
  cases role <;> rfl

@[simp] theorem Role.bit_ofBit (b : Bool) : (Role.ofBit b).bit = b := by
  cases b <;> rfl

/-- Settles O1: the fields of each encoding are those its decoder case reads. -/
theorem decodeInvertsEncode : Obligations.DecodeInvertsEncode := by
  unfold Obligations.DecodeInvertsEncode
  intro i
  cases i with
  | ingestAddr addr rsv => simp [encode_ingestAddr, decode_ingestAddr]
  | ingestData data => simp [encode_ingestData, decode_ingestData]
  | assemble => simp [encode_assemble, decode_assemble]
  | send payload => simp [encode_send, decode_send]
  | reset role own => simp [encode_reset, decode_reset]

/-- R71, R75: `r = c[7:4]`, read as a number. -/
theorem receivedAddress_low (w : CommandWord) :
    Machine.receivedAddress (w.low.extractLsb' 4 4) = BitVec.ofNat 8 (w.toNat / 16 % 16) := by
  apply BitVec.eq_of_toNat_eq
  rw [Machine.receivedAddress, BitVec.toNat_setWidth, BitVec.extractLsb'_toNat, w.low_eq_ofNat,
    BitVec.toNat_ofNat, BitVec.toNat_ofNat, Nat.shiftRight_eq_div_pow]
  omega

/-- Settles O2: the quotients and remainders are the fields the decoder tests. -/
theorem decodeFollowsTheProcedure : Obligations.DecodeFollowsTheProcedure := by
  unfold Obligations.DecodeFollowsTheProcedure
  intro c
  refine ⟨fun ⟨hop, hbit⟩ => ?_, fun ⟨hop, hbit⟩ => ?_, fun hop => ?_, fun hop => ?_, fun hop => ?_⟩
  · have hmarker : c.word.bit8 = true := by rw [c.word.bit8_eq_decide]; exact decide_eq_true hbit
    refine ⟨_, _, decode_ingestAddr (CommandWord.op_eq_ofNat hop) hmarker, receivedAddress_low c.word, ?_⟩
    rw [addressByte_extractLsb', c.word.low_eq_ofNat]
  · have hmarker : c.word.bit8 = false := by simp [c.word.bit8_eq_decide, hbit]
    rw [decode_ingestData (CommandWord.op_eq_ofNat hop) hmarker, c.word.low_eq_ofNat]
  · exact decode_assemble (CommandWord.op_eq_ofNat hop)
  · exact decode_send (CommandWord.op_eq_ofNat hop)
  · rw [decode_reset (CommandWord.op_eq_ofNat hop), c.word.low_eq_ofNat, c.word.bit8_eq_decide]
    simp only [Role.ofBit, decide_eq_true_eq]

/-! ## What the encoder gives back -/

/-- R60, R65: every bit of an INGEST word is its operand's. -/
theorem encode_decode_ingest {c : Command} (hop : c.word.op = 0b00) :
    encode (decode c) = { word := c.word, payload := [] } := by
  have hself := c.word.ofFields_self
  cases hmarker : c.word.bit8 with
  | true =>
    rw [hop, hmarker] at hself
    rw [decode_ingestAddr hop hmarker, encode_ingestAddr, addressByte_extractLsb', hself]
  | false =>
    rw [hop, hmarker] at hself
    rw [decode_ingestData hop hmarker, encode_ingestData, hself]

/-- R66: every bit of a RESET word is its operands'. -/
theorem encode_decode_reset {c : Command} (hop : c.word.op = 0b11) :
    encode (decode c) = { word := c.word, payload := [] } := by
  have hself := c.word.ofFields_self
  rw [hop] at hself
  rw [decode_reset hop, encode_reset, Role.bit_ofBit, hself]

/-- Settles O3: the two INGEST and the RESET words are all operand, the other two carry ignored bits. -/
theorem encodeGivesBackEveryUsedBit : Obligations.EncodeGivesBackEveryUsedBit := by
  unfold Obligations.EncodeGivesBackEveryUsedBit
  intro w payload
  refine ⟨?_, fun hop => ?_, fun hop => ?_⟩
  · rintro (hop | hop)
    · exact encode_decode_ingest (CommandWord.op_eq_ofNat hop)
    · exact encode_decode_reset (CommandWord.op_eq_ofNat hop)
  · rw [decode_assemble (CommandWord.op_eq_ofNat hop)]
    rfl
  · rw [decode_send (CommandWord.op_eq_ofNat hop)]
    rfl

/-- Settles O4. -/
theorem commandWordsOfTheSpecDecode : Obligations.CommandWordsOfTheSpecDecode := by
  unfold Obligations.CommandWordsOfTheSpecDecode
  decide

/-! ## Units -/

theorem WireUnit.ofBits_bits (u : WireUnit) : WireUnit.ofBits u.bits = u := by
  have hmarker : u.bits.getLsbD 8 = u.marker := getLsbD_eight_ofBool_append u.marker u.data
  have hdata : u.bits.extractLsb' 0 8 = u.data := BitVec.extractLsb'_append_eq_right
  rw [WireUnit.ofBits, hmarker, hdata]

/-- R60: the marker is worth 256. -/
theorem WireUnit.toNat_bits (u : WireUnit) :
    u.bits.toNat = (if u.marker then 256 else 0) + u.data.toNat := by
  rw [WireUnit.bits, BitVec.toNat_append, ← Nat.shiftLeft_add_eq_or_of_lt u.data.isLt]
  cases u.marker <;> rfl

/-- The command of a unit has the unit as its `arg` (R65, R74). -/
theorem WireUnit.command_eq (u : WireUnit) :
    u.command = { word := .ofFields 0b00 u.marker u.data, payload := [] } := by
  rw [WireUnit.command, WireUnit.bits, CommandWord.ofFields, BitVec.append_assoc]
  rfl

/-- R123: the marker selects INGEST.ADDR. -/
theorem WireUnit.instr_of_marked {u : WireUnit} (h : u.marker = true) :
    u.instr = .ingestAddr (u.data.extractLsb' 4 4) (u.data.extractLsb' 0 4) := by
  simp [WireUnit.instr, u.command_eq, decode_ingestAddr, h]

/-- R123: a unit without the marker is INGEST.DATA. -/
theorem WireUnit.instr_of_unmarked {u : WireUnit} (h : u.marker = false) : u.instr = .ingestData u.data := by
  simp [WireUnit.instr, u.command_eq, decode_ingestData, h]

/-- Settles O5. -/
theorem unitSelectsItsIngest : Obligations.UnitSelectsItsIngest := by
  unfold Obligations.UnitSelectsItsIngest
  intro u
  refine ⟨u.ofBits_bits, u.toNat_bits, ?_⟩
  split
  next hmarked => exact WireUnit.instr_of_marked hmarked
  next hunmarked => exact WireUnit.instr_of_unmarked (eq_false_of_ne_true hunmarked)

end Sys2Proof

namespace Sys2Proof.Machine

/-! ## The Frame ASSEMBLE returns -/

/-- R71: a decoded address fits the four bits it is read from. -/
theorem addressOfByte_toNat_le (b : Byte) : (addressOfByte b).toNat ≤ 15 := by
  have hlt : (b.extractLsb' 4 4).toNat < 16 := (b.extractLsb' 4 4).isLt
  rw [addressOfByte, BitVec.toNat_setWidth]
  omega

theorem Frame.broadcast_iff (f : Frame) : f.broadcast = true ↔ f.address = 0x0F := beq_iff_eq

theorem Frame.valid_iff (f : Frame) : f.valid = true ↔ f.checksum = crc16usb f.payload := beq_iff_eq

/-- A Frame that ASSEMBLE returns is the one the decode of the buffer found (R140). -/
theorem execAssemble_frame {s t : State} {f : Frame} {c : Option Condition} (h : execAssemble s = .next t)
    (hout : t.output = some { result := .assembled (some f), condition := c }) :
    ∃ bytes p, s.view = .ok bytes ∧ parseFrame bytes = .ok p ∧
      f = { address := p.address, payload := p.payload, checksum := p.checksum } := by
  obtain ⟨-, bytes, hview, ⟨p, hp, rfl⟩ | ⟨-, rfl⟩ | ⟨-, rfl⟩⟩ := execAssemble_cases h
  · cases hout
    exact ⟨bytes, p, hview, hp, rfl⟩
  · cases hout
  · cases hout

/-- Settles O35: a Frame comes from an accepted decode, so its length byte was not the rejected one. -/
theorem assembledFrameIsInRange : Obligations.AssembledFrameIsInRange := by
  unfold Obligations.AssembledFrameIsInRange
  intro s t f c h hout
  obtain ⟨bytes, p, hview, hp, rfl⟩ := execAssemble_frame h hout
  obtain ⟨first, length, lo, hi, rfl, hlength, hpayload, haddress, -⟩ := parseFrame_eq_ok hp
  have hread : s.bufRead 1 = .ok length := (State.view_ok hview).2 1 (by simp)
  refine ⟨?_, rfl, ?_, ?_, Frame.broadcast_iff _, Frame.valid_iff _⟩
  · exact haddress ▸ addressOfByte_toNat_le first
  · exact hpayload.trans_le (toNat_le_maxRxLen hlength)
  · rw [hread, Frame.length, hpayload, BitVec.ofNat_toNat, BitVec.setWidth_eq]

end Sys2Proof.Machine
end

section
/-! The checksum (spec/40_crc.md). A byte step is linear and injective, and a word whose low bits are zero is only
moved right by it: the table form, the residue of a streaming validator and the detection of single-bit errors all
follow from these facts. -/

namespace Sys2Proof.Machine

/-! ## The shifts -/

/-- R91 tests bit 0 of the register by a mask. -/
theorem and_one_eq_one_iff (c : Word16) : c &&& 1 = 1 ↔ c.getLsbD 0 = true := by
  have hmask : c &&& 1 = (BitVec.ofBool (c.getLsbD 0)).setWidth 16 := BitVec.and_one_eq_setWidth_ofBool_getLsbD
  rw [hmask]
  cases c.getLsbD 0 <;> decide

theorem crcShift_eq_ite_and_one (c : Word16) :
    crcShift c = if c &&& 1 = 1 then (c >>> 1) ^^^ 0xA001 else c >>> 1 := by
  simp only [crcShift, and_one_eq_one_iff]

theorem crcShifts_eq_iterate (n : Nat) (c : Word16) : crcShifts n c = crcShift^[n] c := by
  induction n generalizing c with
  | zero => rfl
  | succ n ih => exact ih (crcShift c)

/-- A shift moves bit 0 to bit 15, so that its two branches never meet. -/
theorem crcShift_getLsbD_fifteen (c : Word16) : (crcShift c).getLsbD 15 = c.getLsbD 0 := by
  unfold crcShift
  split
  next hbit => simpa using hbit
  next hbit => simpa using hbit

theorem eq_of_ushiftRight_one_eq {a b : Word16} (hrest : a >>> 1 = b >>> 1)
    (hbit : a.getLsbD 0 = b.getLsbD 0) : a = b := by
  apply BitVec.eq_of_getLsbD_eq
  rintro (_ | i) -
  · exact hbit
  · simpa [Nat.add_comm] using congrArg (·.getLsbD i) hrest

theorem crcShift_injective : Function.Injective crcShift := by
  intro a b h
  have hbit : a.getLsbD 0 = b.getLsbD 0 := by
    rw [← crcShift_getLsbD_fifteen a, ← crcShift_getLsbD_fifteen b, h]
  refine eq_of_ushiftRight_one_eq ?_ hbit
  simp only [crcShift, hbit] at h
  split at h
  · exact BitVec.xor_left_inj _ |>.mp h
  · exact h

theorem crcShifts_injective (n : Nat) : Function.Injective (crcShifts n) := by
  rw [funext (crcShifts_eq_iterate n)]
  exact crcShift_injective.iterate n

/-- Shifts that only drop zero bits never meet the polynomial. -/
theorem crcShifts_of_low_bits_zero {n : Nat} {c : Word16} (h : ∀ i < n, c.getLsbD i = false) :
    crcShifts n c = c >>> n := by
  induction n generalizing c with
  | zero => rfl
  | succ n ih =>
    have hshift : crcShift c = c >>> 1 := by
      rw [crcShift, h 0 n.succ_pos, if_neg Bool.false_ne_true]
    have hlow : ∀ i < n, (c >>> 1).getLsbD i = false := fun i hi => by
      simpa [Nat.add_comm] using h (i + 1) (by omega)
    rw [crcShifts, hshift, ih hlow, ← BitVec.shiftRight_add, Nat.add_comm]

/-! ## The two bytes of a word -/

theorem byte_setWidth_ushiftRight_eight (b : Byte) : b.setWidth 16 >>> 8 = 0#16 := by
  apply BitVec.eq_of_getLsbD_eq
  intro i _
  simp

theorem byte_setWidth_shiftLeft_ushiftRight_eight (b : Byte) : (b.setWidth 16 <<< 8) >>> 8 = b.setWidth 16 := by
  apply BitVec.eq_of_getLsbD_eq
  intro i hi
  by_cases hlow : i < 8
  · simp [hi, hlow, show 8 + i < 16 by omega]
  · simp [hi, show ¬8 + i < 16 by omega, BitVec.getLsbD_of_ge b i (by omega)]

theorem byte_setWidth_injective : Function.Injective (fun b : Byte => b.setWidth 16) := by
  intro a b h
  simpa using congrArg (BitVec.setWidth 8) h

/-- The two bytes of a checksum do not overlap (R50). -/
theorem checksumOf_eq_xor (lo hi : Byte) : checksumOf lo hi = lo.setWidth 16 ^^^ (hi.setWidth 16 <<< 8) := by
  apply BitVec.eq_of_getLsbD_eq
  intro i hi
  by_cases hlow : i < 8
  · simp [checksumOf, hlow]
  · simp [checksumOf, hlow, BitVec.getLsbD_of_ge lo i (by omega)]

theorem xor_setWidth_low_bits_zero (c : Word16) (i : Nat) (hi : i < 8) :
    (c ^^^ (c.setWidth 8).setWidth 16).getLsbD i = false := by
  simp [hi, show i < 16 by omega]

/-! ## The byte step -/

/-- R91: eight shifts bring a byte in the high half to the low half as it is. -/
theorem crcShifts_eight_high_byte (b : Byte) : crcShifts 8 (b.setWidth 16 <<< 8) = b.setWidth 16 := by
  rw [crcShifts_of_low_bits_zero fun i hi => by simp [hi], byte_setWidth_shiftLeft_ushiftRight_eight]

/-- R91: the table form of eight shifts. -/
theorem crcShifts_eight_eq_table (c : Word16) : crcShifts 8 c = (c >>> 8) ^^^ crcStep 0#16 (c.setWidth 8) := by
  have hhigh : crcShifts 8 (c ^^^ (c.setWidth 8).setWidth 16) = c >>> 8 := by
    rw [crcShifts_of_low_bits_zero (xor_setWidth_low_bits_zero c), BitVec.ushiftRight_xor_distrib,
      byte_setWidth_ushiftRight_eight, BitVec.xor_zero]
  calc crcShifts 8 c = crcShifts 8 ((c ^^^ (c.setWidth 8).setWidth 16) ^^^ (c.setWidth 8).setWidth 16) := by
        rw [BitVec.xor_assoc, BitVec.xor_self, BitVec.xor_zero]
    _ = (c >>> 8) ^^^ crcStep 0#16 (c.setWidth 8) := by
        rw [crcShifts_xor, hhigh, crcStep, BitVec.zero_xor]

theorem crcStep_eq_table (c : Word16) (b : Byte) :
    crcStep c b = (c >>> 8) ^^^ crcStep 0#16 ((c ^^^ b.setWidth 16).setWidth 8) := by
  rw [crcStep, crcShifts_eight_eq_table, BitVec.ushiftRight_xor_distrib, byte_setWidth_ushiftRight_eight,
    BitVec.xor_zero]

theorem crcStep_left_injective (b : Byte) : Function.Injective (crcStep · b) := by
  intro c c' h
  exact (BitVec.xor_left_inj _).mp (crcShifts_injective 8 h)

theorem crcStep_injective (c : Word16) : Function.Injective (crcStep c) := by
  intro b b' h
  exact byte_setWidth_injective ((BitVec.xor_right_inj _).mp (crcShifts_injective 8 h))

/-- R91, R50: two byte steps are sixteen shifts of the register with the two bytes in it. -/
theorem crcStep_crcStep (c : Word16) (lo hi : Byte) :
    crcStep (crcStep c lo) hi = crcShifts 16 (c ^^^ checksumOf lo hi) := by
  calc crcStep (crcStep c lo) hi
      = crcShifts 8 (crcShifts 8 (c ^^^ lo.setWidth 16) ^^^ crcShifts 8 (hi.setWidth 16 <<< 8)) := by
        rw [crcShifts_eight_high_byte, crcStep, crcStep]
    _ = crcShifts 8 (crcShifts 8 (c ^^^ checksumOf lo hi)) := by
        rw [← crcShifts_xor, BitVec.xor_assoc, ← checksumOf_eq_xor]
    _ = crcShifts 16 (c ^^^ checksumOf lo hi) := (crcShifts_add 8 8 _).symm

/-- Settles O7: the table form holds because the shift is linear and moves what stands above the low byte as it
is; the printed entries are computed. -/
theorem crcStepHasItsTableForm : Obligations.CrcStepHasItsTableForm := by
  unfold Obligations.CrcStepHasItsTableForm
  refine ⟨fun c b => ?_, fun _ => rfl, crcStep_eq_table, by decide, by decide, by decide⟩
  rw [← funext crcShift_eq_ite_and_one]
  exact crcShifts_eq_iterate 8 _

/-- Settles O8, by running the model on the two payloads of R96. -/
theorem crcWorkedExamples : Obligations.CrcWorkedExamples := by
  unfold Obligations.CrcWorkedExamples
  refine ⟨?shiftsOfFF, ?checksumOfFF, ?lowOfFF, ?highOfFF, ?shiftsOf01, ?checksumOf01, ?lowOf01, ?highOf01⟩
  all_goals decide

/-! ## The fold and the check -/

theorem crcFold_injective (bytes : List Byte) : Function.Injective (crcFold · bytes) := by
  induction bytes with
  | nil => exact fun _ _ h => h
  | cons b bytes ih => exact ih.comp (crcStep_left_injective b)

theorem crcCheck_iff {payload : List Byte} {k : Word16} : crcCheck payload k = true ↔ k = crc16usb payload :=
  beq_iff_eq

/-- Payloads that differ in one byte differ in their checksum. -/
theorem crc16usb_one_byte {before after : List Byte} {b b' : Byte}
    (h : crc16usb (before ++ b :: after) = crc16usb (before ++ b' :: after)) : b = b' := by
  have hfold := (BitVec.xor_left_inj _).mp h
  rw [crcFold_append, crcFold_append] at hfold
  exact crcStep_injective _ (crcFold_injective after hfold)

theorem one_shiftLeft_ne_zero {w j : Nat} (h : j < w) : 1#w <<< j ≠ 0#w := by
  intro hzero
  have hbit : (BitVec.twoPow w j).getLsbD j = false := by rw [BitVec.twoPow_eq, hzero, BitVec.getLsbD_zero]
  simp [h] at hbit

theorem xor_one_shiftLeft_ne {w j : Nat} (h : j < w) (x : BitVec w) : x ^^^ (1#w <<< j) ≠ x := by
  intro hx
  exact one_shiftLeft_ne_zero h ((BitVec.xor_right_inj x).mp (hx.trans BitVec.xor_zero.symm))

/-- Settles O11: each byte step is injective in the register and in the byte, so one changed byte changes the
checksum. -/
theorem checkRejectsEverySingleBitError : Obligations.CheckRejectsEverySingleBitError := by
  unfold Obligations.CheckRejectsEverySingleBitError
  intro payload k hk
  rw [crcCheck_iff] at hk
  subst hk
  constructor
  · rintro before after b j rfl hj
    rw [← Bool.not_eq_true, crcCheck_iff]
    exact fun h => xor_one_shiftLeft_ne hj b (crc16usb_one_byte h).symm
  · intro j hj
    rw [← Bool.not_eq_true, crcCheck_iff]
    exact xor_one_shiftLeft_ne hj _

theorem xor_eq_iff_eq_xor (x y z : Word16) : x ^^^ y = z ↔ y = x ^^^ z := by
  rw [← BitVec.xor_right_inj x (x := y), ← BitVec.xor_assoc, BitVec.xor_self, BitVec.zero_xor]

/-- R94: the two checksum bytes go through a streaming validator as one word. -/
theorem crcFold_append_checksum (c : Word16) (payload : List Byte) (lo hi : Byte) :
    crcFold c (payload ++ [lo, hi]) = crcShifts 16 (crcFold c payload ^^^ checksumOf lo hi) := by
  rw [crcFold_append, crcFold_cons, crcFold_cons, crcFold_nil, crcStep_crcStep]

theorem crcShifts_sixteen_residue : crcShifts 16 0xFFFF = 0xB001 := by decide +kernel

/-- R94, R95: the checksum is the one word that leaves `0xFFFF` in the register before its sixteen shifts. -/
theorem crcFold_eq_residue_iff (payload : List Byte) (lo hi : Byte) :
    crcFold 0xFFFF (payload ++ [lo, hi]) = 0xB001 ↔ checksumOf lo hi = crc16usb payload := by
  rw [crcFold_append_checksum, ← crcShifts_sixteen_residue, (crcShifts_injective 16).eq_iff, xor_eq_iff_eq_xor,
    crc16usb]

/-- Settles O9: sixteen shifts are injective, so one word alone leads to the residue. -/
theorem streamingValidatorAgreesWithCheck : Obligations.StreamingValidatorAgreesWithCheck := by
  unfold Obligations.StreamingValidatorAgreesWithCheck
  intro payload lo hi
  refine ⟨(crcFold_eq_residue_iff payload lo hi).trans crcCheck_iff.symm, ?_⟩
  rw [crc16usb, (crcFold_eq_residue_iff payload _ _).mpr (checksumOf_lowByte_highByte _)]
  rfl

/-- Refutes O10: on the payload `[0xFF]` of R96 the register ends at `0xB001`, as on every other payload. -/
theorem not_residueLawAsPrinted : ¬ Obligations.ResidueLawAsPrinted := by
  unfold Obligations.ResidueLawAsPrinted
  intro h
  have hregister : crcFold 0xFFFF ([0xFF] ++ [lowByte (crc16usb [0xFF]), highByte (crc16usb [0xFF])]) = 0xB001 := by
    decide +kernel
  exact absurd (hregister.symm.trans (h [0xFF]).1) (by decide)

end Sys2Proof.Machine
end

section
/-! The parser (spec/41_parser.md): what each field function consumes, the three outcomes of the decode and the
fields it finds, its stability under extension, and the round trip from SEND through the bus to ASSEMBLE. -/

namespace Sys2Proof.Machine

/-! ## The fields as numbers -/

/-- R71, R101: the address value is the upper nibble. -/
theorem addressOfByte_toNat (b : Byte) : (addressOfByte b).toNat = b.toNat / 16 := by
  have hb : b.toNat < 256 := b.isLt
  rw [addressOfByte, BitVec.toNat_setWidth, BitVec.extractLsb'_toNat, Nat.shiftRight_eq_div_pow]
  omega

theorem addressOfByte_eq_ofNat (b : Byte) : addressOfByte b = BitVec.ofNat 8 (b.toNat / 16) := by
  rw [← addressOfByte_toNat, BitVec.ofNat_toNat, BitVec.setWidth_eq]

/-- R50, R71: the two checksum bytes, low byte first. -/
theorem checksumOf_toNat (lo hi : Byte) : (checksumOf lo hi).toNat = lo.toNat + 256 * hi.toNat := by
  have hlo : lo.toNat < 2 ^ 8 := lo.isLt
  have hhi : hi.toNat < 2 ^ 8 := hi.isLt
  have hor := Nat.shiftLeft_add_eq_or_of_lt hlo hi.toNat
  rw [Nat.shiftLeft_eq] at hor
  rw [checksumOf, BitVec.toNat_or, BitVec.toNat_shiftLeft, BitVec.toNat_setWidth, BitVec.toNat_setWidth,
    Nat.shiftLeft_eq, Nat.mod_eq_of_lt (by omega : lo.toNat < 2 ^ 16),
    Nat.mod_eq_of_lt (by omega : hi.toNat < 2 ^ 16), Nat.mod_eq_of_lt (by omega : hi.toNat * 2 ^ 8 < 2 ^ 16),
    Nat.or_comm, ← hor]
  omega

theorem checksumOf_eq_ofNat (lo hi : Byte) :
    checksumOf lo hi = BitVec.ofNat 16 (lo.toNat + 256 * hi.toNat) := by
  rw [← checksumOf_toNat, BitVec.ofNat_toNat, BitVec.setWidth_eq]

/-! ## The field functions -/

/-- R105: the first two bytes, and nothing before both are there. -/
theorem parseHeaderFields_of_short {bytes : List Byte} (h : bytes.length < 2) :
    parseHeaderFields bytes = .incomplete := by
  match bytes, h with
  | [], _ => rfl
  | [_], _ => rfl

/-- Settles O12. -/
theorem fieldReadersConsumeTheirFields : Obligations.FieldReadersConsumeTheirFields := by
  unfold Obligations.FieldReadersConsumeTheirFields
  refine ⟨⟨rfl, fun b rest => ?_⟩, ⟨rfl, fun b rest => rfl⟩, fun bytes n => ⟨?_, ?_⟩,
    fun bytes => ⟨readChecksum_of_length, ?_⟩, fun bytes => ⟨parseHeaderFields_of_short, ?_⟩⟩
  · rw [readAddress, addressOfByte_eq_ofNat]
  · exact fun hshort => if_pos hshort
  · exact fun hthere => if_neg (Nat.not_lt.mpr hthere)
  · rintro lo hi rest rfl
    rw [readChecksum, checksumOf_eq_ofNat]
  · rintro first length rest rfl
    rw [← addressOfByte_eq_ofNat]
    rfl

/-! ## The three outcomes -/

/-- R106: which of the three outcomes a decode has. With two bytes or more the length byte decides, with the number
of bytes after it. -/
theorem parseFrame_outcomes (bytes : List Byte) :
    (parseFrame bytes = .malformed ↔ bytes[1]? = some 0xFF) ∧
    (parseFrame bytes = .incomplete ↔
      bytes.length < 2 ∨ ∃ length : Byte, bytes[1]? = some length ∧ length ≠ 0xFF ∧
        bytes.length < 4 + length.toNat) ∧
    ((∃ p, parseFrame bytes = .ok p) ↔
      ∃ length : Byte, bytes[1]? = some length ∧ length ≠ 0xFF ∧ 4 + length.toNat ≤ bytes.length) := by
  match bytes with
  | [] => simp [parseFrame_nil]
  | [b] => simp [parseFrame_single]
  | first :: length :: rest =>
    by_cases hl : length = Config.rejectedLength
    · subst hl
      rw [parseFrame_rejected]
      simp
    · have hff : length ≠ 255#8 := hl
      rcases lt_or_ge rest.length (length.toNat + 2) with hshort | hwhole
      · have hlt : rest.length + 1 + 1 < 4 + length.toNat := by omega
        rw [parseFrame_short hl hshort]
        simp [hff, hlt]
      · obtain ⟨p, hp⟩ := parseFrame_complete (first := first) hl hwhole
        have hle : 4 + length.toNat ≤ rest.length + 1 + 1 := by omega
        rw [hp]
        simp [hff, hle]

/-- R106: where in the sequence the fields of an accepted decode stand. -/
theorem parseFrame_fields {bytes : List Byte} {p : ParsedFrame} (h : parseFrame bytes = .ok p) :
    ∃ first length lo hi : Byte,
      bytes[0]? = some first ∧ bytes[1]? = some length ∧
      bytes[2 + length.toNat]? = some lo ∧ bytes[3 + length.toNat]? = some hi ∧
      p.address.toNat = first.toNat / 16 ∧
      p.payload = (bytes.drop 2).take length.toNat ∧ p.payload.length = length.toNat ∧
      p.checksum.toNat = lo.toNat + 256 * hi.toNat ∧
      p.remainder = bytes.drop (4 + length.toNat) := by
  obtain ⟨first, length, lo, hi, rfl, -, hpayload, haddress, hchecksum⟩ := parseFrame_eq_ok h
  refine ⟨first, length, lo, hi, rfl, rfl, ?_, ?_, ?_, ?_, hpayload, ?_, ?_⟩
  · simp [← hpayload, Nat.add_comm 2]
  · simp [← hpayload, Nat.add_comm 3]
  · rw [haddress, addressOfByte_toNat]
  · simp [← hpayload]
  · rw [hchecksum, checksumOf_toNat]
  · simp [← hpayload, Nat.add_comm 4]

/-- Settles O13. -/
theorem parseFrameOutcomes : Obligations.ParseFrameOutcomes := by
  unfold Obligations.ParseFrameOutcomes
  intro bytes
  obtain ⟨hmalformed, hincomplete, hok⟩ := parseFrame_outcomes bytes
  exact ⟨hmalformed, hincomplete, hok, fun _ => parseFrame_fields⟩

/-! ## Stability under extension -/

theorem getElem?_append_of_eq_some {s : List Byte} {n : Nat} {b : Byte} (h : s[n]? = some b) (t : List Byte) :
    (s ++ t)[n]? = some b := by
  obtain ⟨hlt, -⟩ := List.getElem?_eq_some_iff.mp h
  rw [List.getElem?_append_left hlt, h]

/-- R111: once a frame is complete, more bytes only lengthen the remainder. -/
theorem parseFrame_append_of_ok {s : List Byte} {p : ParsedFrame} (h : parseFrame s = .ok p) (t : List Byte) :
    parseFrame (s ++ t) = .ok { p with remainder := p.remainder ++ t } := by
  obtain ⟨first, length, lo, hi, rfl, hl, hpayload, haddress, hchecksum⟩ := parseFrame_eq_ok h
  simp only [List.cons_append, List.append_assoc]
  rw [parseFrame_image hl hpayload, haddress, hchecksum]

theorem parseFrame_append_of_malformed {s : List Byte} (h : parseFrame s = .malformed) (t : List Byte) :
    parseFrame (s ++ t) = .malformed := by
  rw [(parseFrame_outcomes _).1] at h ⊢
  exact getElem?_append_of_eq_some h t

/-- Settles O14: the length byte stands in the extended sequence too, so the outcomes of that are read off it. -/
theorem parseIsStableUnderExtension : Obligations.ParseIsStableUnderExtension := by
  unfold Obligations.ParseIsStableUnderExtension
  intro s t
  refine ⟨fun p hp => parseFrame_append_of_ok hp t, fun hp => parseFrame_append_of_malformed hp t,
    fun length _ hlength hff => ?_⟩
  have hextended : (s ++ t)[1]? = some length := getElem?_append_of_eq_some hlength t
  obtain ⟨-, hincomplete, hok⟩ := parseFrame_outcomes (s ++ t)
  rw [hok, hincomplete, ← List.length_append]
  refine ⟨⟨?_, fun hwhole => ⟨length, hextended, hff, hwhole⟩⟩,
    fun hshort => .inr ⟨length, hextended, hff, hshort⟩⟩
  rintro ⟨found, hfound, -, hwhole⟩
  rwa [Option.some.inj (hextended.symm.trans hfound)]

/-- R111 read backwards: what a decode that waits for more bytes has read so far was waiting too. -/
theorem parseFrame_incomplete_of_append {s t : List Byte} (h : parseFrame (s ++ t) = .incomplete) :
    parseFrame s = .incomplete := by
  cases hs : parseFrame s with
  | ok p => rw [parseFrame_append_of_ok hs t] at h; cases h
  | incomplete => rfl
  | malformed => rw [parseFrame_append_of_malformed hs t] at h; cases h

/-- A sequence that is one image and no more is incomplete wherever it is cut short. -/
theorem parseFrame_incomplete_of_cut {s t : List Byte} {p : ParsedFrame} (h : parseFrame (s ++ t) = .ok p)
    (hrest : p.remainder = []) (ht : t ≠ []) : parseFrame s = .incomplete := by
  cases hs : parseFrame s with
  | ok q =>
    rw [parseFrame_append_of_ok hs t] at h
    cases h
    exact absurd (List.append_eq_nil_iff.mp hrest).2 ht
  | incomplete => rfl
  | malformed => rw [parseFrame_append_of_malformed hs t] at h; cases h

/-! ## The round trip -/

/-- R46, R106: the decode of a frame image gives back what it was built from. -/
theorem parseFrame_frameImage (first : Byte) {payload : List Byte} (k : Word16) (rest : List Byte)
    (h : payload.length ≤ Config.maxRxLen) :
    parseFrame (frameImage first payload k ++ rest) =
      .ok { address := addressOfByte first, payload := payload, checksum := k, remainder := rest } := by
  have himage : frameImage first payload k ++ rest =
      first :: lengthByte payload.length :: (payload ++ lowByte k :: highByte k :: rest) := by
    simp [frameImage]
  rw [himage, parseFrame_image (lengthByte_ne_rejected h) (lengthByte_toNat h).symm,
    checksumOf_lowByte_highByte]

/-- R71, R151: a legal own address goes through the upper nibble of the address byte unchanged. -/
theorem addressOfByte_sentAddressByte {own : Byte} (h : own.toNat ≤ 15) :
    addressOfByte (sentAddressByte own) = own := by
  apply BitVec.eq_of_toNat_eq
  rw [addressOfByte, sentAddressByte, BitVec.extractLsb'_append_eq_left, BitVec.toNat_setWidth,
    BitVec.extractLsb'_toNat, Nat.shiftRight_zero]
  omega

/-- R112: the decode of what SEND puts on the wire. -/
theorem parseFrame_sendUnits {own : Byte} {payload : List Byte} (hown : own.toNat ≤ 15)
    (h : payload.length ≤ Config.maxTxLen) :
    parseFrame ((sendUnits own payload).map WireUnit.data) =
      .ok { address := own, payload := payload, checksum := crc16usb payload, remainder := [] } := by
  have hrx : payload.length ≤ Config.maxRxLen := h.trans (by decide)
  have himage := parseFrame_frameImage (sentAddressByte own) (crc16usb payload) [] hrx
  rwa [List.append_nil, addressOfByte_sentAddressByte hown, ← frameUnits_data] at himage

/-- Settles O38. -/
theorem sentFrameParsesBack : Obligations.SentFrameParsesBack := by
  unfold Obligations.SentFrameParsesBack
  intro own payload hpayload hown
  refine ⟨?_, (Frame.valid_iff _).mpr rfl⟩
  rw [parseFrameOwned, parseFrame_sendUnits hown hpayload]
  rfl

/-! ## Units applied to one node -/

/-- The first unit's operation, then those of the others (R174). -/
theorem ingestUnits_cons {u : WireUnit} {units : List WireUnit} {s t v : State} {outs : List (Option Output)}
    (hu : exec u.instr s = .next t) (hunits : ingestUnits units t = .next (v, outs)) :
    ingestUnits (u :: units) s = .next (v, t.output :: outs) := by
  rw [ingestUnits] at hunits
  simp only [ingestUnits, List.map_cons, execAll, hu, hunits]

theorem ingestUnits_append {units more : List WireUnit} {s t v : State} {outs outs' : List (Option Output)}
    (hunits : ingestUnits units s = .next (t, outs)) (hmore : ingestUnits more t = .next (v, outs')) :
    ingestUnits (units ++ more) s = .next (v, outs ++ outs') := by
  induction units generalizing s outs with
  | nil =>
    cases hunits
    exact hmore
  | cons u units ih =>
    obtain ⟨w, rest, hu, hrest, rfl⟩ := execAll_cons_next hunits
    exact ingestUnits_cons hu (ih hrest)

/-- R172: no unit of the wire writes the configuration. -/
theorem ingestUnits_config {units : List WireUnit} {s t : State} {outs : List (Option Output)}
    (h : ingestUnits units s = .next (t, outs)) :
    t.params = s.params ∧ t.role = s.role ∧ t.ownAddr = s.ownAddr ∧ t.constructed = s.constructed := by
  induction units generalizing s outs with
  | nil =>
    cases h
    exact ⟨rfl, rfl, rfl, rfl⟩
  | cons u units ih =>
    obtain ⟨w, rest, hu, hrest, rfl⟩ := execAll_cons_next h
    obtain ⟨hparams, hrole, hown, hconstructed⟩ := ih hrest
    have hnotReset : ∀ role own, u.instr ≠ .reset role own := by
      intro role own
      cases hmarker : u.marker with
      | true => rw [WireUnit.instr_of_marked hmarker]; nofun
      | false => rw [WireUnit.instr_of_unmarked hmarker]; nofun
    obtain ⟨hwparams, -, hconfig⟩ := onlyResetWritesTheConfiguration _ _ _ hu
    obtain ⟨hwrole, hwown, hwconstructed⟩ := hconfig hnotReset
    exact ⟨hparams.trans hwparams, hrole.trans hwrole, hown.trans hwown, hconstructed.trans hwconstructed⟩

/-- R125, R133: the address word of a matching frame leaves exactly its own byte, silently. -/
theorem exec_addressUnit {s : State} {first : Byte} (hc : s.constructed = true) (hcap : 1 ≤ s.params.cap)
    (hmatch : addressMatch s.ownAddr (addressOfByte first) = true) :
    exec (WireUnit.instr { marker := true, data := first }) s =
      .next ((s.replace [first]).withOutput (.response .noResponse) none) := by
  have hreceived : addressMatch s.ownAddr (receivedAddress (first.extractLsb' 4 4)) = true := hmatch
  rw [WireUnit.instr_of_marked rfl]
  show execIngestAddr _ _ s = _
  rw [execIngestAddr, s.whenConstructed_of hc, if_pos hreceived, addressByte_extractLsb',
    s.pushAfterClear_eq _ hcap]
  rfl

/-- R126: a data word that fits a started buffer is appended; a Slave answers for the sequence it then holds, a
Master not at all. -/
theorem exec_dataUnit {s : State} {held : List Byte} (b : Byte) (hc : s.constructed = true)
    (hs : s.Holds held) (hne : held ≠ []) (hroom : held.length < s.params.cap) :
    ∃ response condition, exec (dataUnit b).instr s =
        .next ((s.append b).withOutput (.response response) condition) ∧
      (s.role = .master → response = .noResponse) ∧
      (s.role = .slave → response = fastResponse (parseFrame (held ++ [b]))) := by
  have hlen : s.len = held.length := hs.2.1
  have hstarted : s.len ≠ 0 := hlen ▸ mt List.length_eq_zero_iff.mp hne
  have hexec : exec (dataUnit b).instr s = execIngestData b s := by
    rw [WireUnit.instr_of_unmarked rfl]
    rfl
  rw [hexec, execIngestData, s.whenConstructed_of hc, if_neg hstarted, State.push_of_room b (hlen ▸ hroom)]
  cases hrole : s.role with
  | master => exact ⟨_, _, rfl, fun _ => rfl, nofun⟩
  | slave =>
    have hview := State.withView_of_holds (State.holds_append hs hroom b)
    exact ⟨_, _, hview _, nofun, fun _ => rfl⟩

/-- R132: data words after which the image is still not whole are appended, each in silence, in either role. -/
theorem ingestUnits_incomplete {s : State} {held : List Byte} (data : List Byte) (hc : s.constructed = true)
    (hs : s.Holds held) (hne : held ≠ []) (hroom : (held ++ data).length ≤ s.params.cap)
    (hparse : parseFrame (held ++ data) = .incomplete) :
    ∃ t outs, ingestUnits (data.map dataUnit) s = .next (t, outs) ∧ t.Holds (held ++ data) ∧
      outs.map Output.response = List.replicate data.length (some .noResponse) := by
  induction data generalizing s held with
  | nil => exact ⟨s, [], rfl, by rwa [List.append_nil], rfl⟩
  | cons b data ih =>
    have hsplit : held ++ b :: data = (held ++ [b]) ++ data := by simp
    rw [hsplit] at hroom hparse ⊢
    have hfits : held.length < s.params.cap := by
      simp only [List.length_append, List.length_singleton] at hroom
      omega
    obtain ⟨response, condition, hexec, hmaster, hslave⟩ := exec_dataUnit b hc hs hne hfits
    have hsilent : response = .noResponse := by
      cases hrole : s.role with
      | master => exact hmaster hrole
      | slave => rw [hslave hrole, parseFrame_incomplete_of_append hparse]; rfl
    obtain ⟨t, outs, hunits, ht, houts⟩ :=
      ih (s := (s.append b).withOutput (.response response) condition) hc (State.holds_append hs hfits b)
        (by simp) hroom hparse
    refine ⟨t, _, ingestUnits_cons hexec hunits, ht, ?_⟩
    rw [List.map_cons, houts, hsilent]
    rfl

/-- The bytes of a frame between its address byte and its last byte (R46). -/
def frameBody (payload : List Byte) (k : Word16) : List Byte :=
  lengthByte payload.length :: (payload ++ [lowByte k])

theorem frameBody_length (payload : List Byte) (k : Word16) : (frameBody payload k).length = payload.length + 2 := by
  simp [frameBody]

theorem frameImage_eq_frameBody (first : Byte) (payload : List Byte) (k : Word16) :
    frameImage first payload k = first :: frameBody payload k ++ [highByte k] := by
  simp [frameImage, frameBody]

theorem frameUnits_eq_frameBody (first : Byte) (payload : List Byte) (k : Word16) :
    frameUnits first payload k =
      { marker := true, data := first } :: (frameBody payload k).map dataUnit ++ [dataUnit (highByte k)] := by
  simp [frameUnits, frameBody]

/-- R132: a Slave that a frame is addressed to answers for it on its last word and on no other, and holds the
frame's image. -/
theorem ingestUnits_frameUnits {s : State} {first : Byte} {payload : List Byte} (k : Word16)
    (hc : s.constructed = true) (hcap : Config.minCap ≤ s.params.cap) (hrole : s.role = .slave)
    (hmatch : addressMatch s.ownAddr (addressOfByte first) = true) (hpayload : payload.length ≤ Config.maxRxLen) :
    ∃ t outs, ingestUnits (frameUnits first payload k) s = .next (t, outs) ∧
      t.Holds (frameImage first payload k) ∧
      outs.map Output.response = List.replicate (payload.length + 3) (some .noResponse) ++
        [some (if crcCheck payload k then .ack else .nack)] := by
  have h258 : 258 ≤ s.params.cap := hcap
  have h254 : payload.length ≤ 254 := hpayload
  have hlength : (first :: frameBody payload k).length = payload.length + 3 :=
    congrArg (· + 1) (frameBody_length payload k)
  have hparse := parseFrame_frameImage first k [] hpayload
  rw [List.append_nil, frameImage_eq_frameBody] at hparse
  have hcut : parseFrame (first :: frameBody payload k) = .incomplete :=
    parseFrame_incomplete_of_cut hparse rfl (List.cons_ne_nil _ _)
  have haddress := exec_addressUnit hc (by omega) hmatch
  obtain ⟨t, outs, hdata, ht, houts⟩ :=
    ingestUnits_incomplete (s := (s.replace [first]).withOutput (.response .noResponse) none) (held := [first])
      (frameBody payload k) hc (s.holds_replace (show 1 ≤ s.params.cap by omega)) (List.cons_ne_nil _ _)
      (show (first :: frameBody payload k).length ≤ s.params.cap by omega) hcut
  obtain ⟨hparams, htrole, -, htconstructed⟩ := ingestUnits_config hdata
  have hroom : (first :: frameBody payload k).length < t.params.cap := by
    rw [hparams]
    show _ < s.params.cap
    omega
  obtain ⟨response, condition, hlast, -, hanswer⟩ :=
    exec_dataUnit (highByte k) (htconstructed.trans hc) ht (List.cons_ne_nil _ _) hroom
  rw [frameUnits_eq_frameBody, frameImage_eq_frameBody]
  refine ⟨_, _, ingestUnits_append (ingestUnits_cons haddress hdata) (ingestUnits_cons hlast rfl),
    State.holds_append ht hroom _, ?_⟩
  rw [List.map_append, List.map_cons, houts, frameBody_length, hanswer (htrole.trans hrole), List.singleton_append,
    hparse]
  rfl

/-! ## A payload carried to a Slave -/

/-- R150: SEND of a payload within the bound. -/
theorem execSend_of_fits {s : State} {payload : List Byte} (hc : s.constructed = true)
    (h : payload.length ≤ Config.maxTxLen) :
    execSend payload s = .next (s.withOutput (.sent (.ok (sendUnits s.ownAddr payload))) none) := by
  rw [execSend, s.whenConstructed_of hc, if_neg (Nat.not_lt.mpr h), State.finish]

/-- R140: ASSEMBLE of a buffer that begins with a whole image. -/
theorem execAssemble_of_ok {s : State} {bytes : List Byte} {p : ParsedFrame} (hc : s.constructed = true)
    (hs : s.Holds bytes) (hp : parseFrame bytes = .ok p) :
    execAssemble s = .next ((s.replace p.remainder).withOutput
      (.assembled (some { address := p.address, payload := p.payload, checksum := p.checksum })) none) := by
  rw [execAssemble, s.whenConstructed_of hc, State.withView_of_holds hs, parseFrameOwned, hp]
  rfl

/-- R174: what the bus makes of a node is what the units make of it. -/
theorem Bus.carry_getElem? {units : List WireUnit} {nodes : List State} {n : Nat} {s : State}
    (h : nodes[n]? = some s) : (Bus.carry units nodes)[n]? = some (ingestUnits units s) := by
  rw [Bus.carry, List.getElem?_map, h, Option.map_some]

/-- Settles O39: SEND puts a whole frame on the bus, the matching Slave holds its image and has answered ACK, and
the decode of the image is what SEND was given. -/
theorem sentFrameReachesEveryMatchingSlave : Obligations.SentFrameReachesEveryMatchingSlave := by
  unfold Obligations.SentFrameReachesEveryMatchingSlave
  intro x payload nodes n y hx hown hpayload hy hconstructed hparams hrole hmatch
  have hfits : payload.length ≤ Config.maxTxLen := Nat.le_of_lt_succ hpayload
  have haddress := addressOfByte_sentAddressByte hown
  obtain ⟨z, outs, hunits, hz, houts⟩ :=
    ingestUnits_frameUnits (s := y) (first := sentAddressByte x.ownAddr) (crc16usb payload) hconstructed
      ((params_wellFormed_iff _).mp hparams).1 hrole (haddress.symm ▸ hmatch) hpayload.le
  obtain ⟨-, -, -, hzconstructed⟩ := ingestUnits_config hunits
  have hparse := parseFrame_sendUnits hown hfits
  rw [sendUnits, frameUnits_data] at hparse
  refine ⟨_, sendUnits x.ownAddr payload, execSend_of_fits hx hfits, rfl, z, outs, ?_, ?_,
    _, execAssemble_of_ok (hzconstructed.trans hconstructed) hz hparse, rfl, rfl⟩
  · rw [Bus.carry_getElem? hy, sendUnits, hunits]
  · rw [houts, if_pos (crcCheck_iff.mpr rfl)]

end Sys2Proof.Machine
end

section
/-! The fast path (spec/42_ingest.md): the address match, what each INGEST makes of the state, the phase table, and
the frames fed unit by unit. -/

namespace Sys2Proof.Machine

/-! ## The address match -/

theorem addressMatch_iff (own r : Byte) : addressMatch own r = true ↔ own &&& r = own ∨ r = 0x0F := by
  rw [addressMatch, Bool.or_eq_true, beq_iff_eq, beq_iff_eq]

theorem nibble_setWidth_injective : Function.Injective (fun n : Nibble => n.setWidth 8) := by
  intro a b h
  simpa using congrArg (BitVec.setWidth 4) h

/-- R28: a legal node address is the nibble that crosses the wire. -/
theorem setWidth_setWidth_of_legal {own : Byte} (h : own.toNat ≤ 15) : (own.setWidth 4).setWidth 8 = own := by
  apply BitVec.eq_of_toNat_eq
  rw [BitVec.toNat_setWidth, BitVec.toNat_setWidth]
  omega

theorem and_receivedAddress_eq_iff (own addr : Nibble) :
    own.setWidth 8 &&& receivedAddress addr = own.setWidth 8 ↔ own &&& addr = own := by
  rw [receivedAddress, ← BitVec.setWidth_and]
  exact nibble_setWidth_injective.eq_iff

/-- R121: on four bits the broadcast clause adds nothing, since every nibble is a subset of `0xF`. -/
theorem addressMatch_nibble_iff (own addr : Nibble) :
    addressMatch (own.setWidth 8) (receivedAddress addr) = true ↔ own &&& addr = own := by
  rw [addressMatch_iff, and_receivedAddress_eq_iff]
  refine or_iff_left_of_imp fun hbroadcast => ?_
  have hall : addr = BitVec.allOnes 4 := nibble_setWidth_injective hbroadcast
  rw [hall, BitVec.and_allOnes]

/-- R121: a received address fits four bits. -/
theorem receivedAddress_toNat_le (addr : Nibble) : (receivedAddress addr).toNat ≤ 15 := by
  have hlt : addr.toNat < 16 := addr.isLt
  rw [receivedAddress, BitVec.toNat_setWidth]
  omega

/-- Settles O17: both clauses of R120 are read on the nibble of the own address. -/
theorem matchIsTheSubsetRule : Obligations.MatchIsTheSubsetRule := by
  unfold Obligations.MatchIsTheSubsetRule
  refine ⟨addressMatch_iff, fun own addr hown => ?_⟩
  obtain ⟨nibble, rfl⟩ : ∃ nibble : Nibble, nibble.setWidth 8 = own := ⟨_, setWidth_setWidth_of_legal hown⟩
  have hback : (nibble.setWidth 8).setWidth 4 = nibble := by simp
  have hle : (receivedAddress addr).toNat ≤ 15 := receivedAddress_toNat_le addr
  have hnotFF : receivedAddress addr ≠ 0xFF := fun hFF => by
    rw [hFF] at hle
    exact absurd hle (by decide)
  refine ⟨hle, ?_, ?_⟩
  · rw [hback, addressMatch_nibble_iff]
  · rw [addressMatch_nibble_iff, and_receivedAddress_eq_iff, or_iff_left hnotFF]

/-- Settles O18: the count is computed for the sixteen nodes, the two special cases are the subset rule at `0` and
at all ones. -/
theorem matchCountsItsAddresses : Obligations.MatchCountsItsAddresses := by
  unfold Obligations.MatchCountsItsAddresses
  refine ⟨by decide, fun own => ?_, fun r => ?_⟩
  · have hzero := addressMatch_nibble_iff own 0#4
    rw [BitVec.and_zero] at hzero
    exact hzero.trans eq_comm
  · have hones := addressMatch_nibble_iff (BitVec.allOnes 4) r
    rwa [BitVec.allOnes_and] at hones

/-! ## INGEST.ADDR -/

/-- R125, R133: a matching address word leaves exactly its own byte. -/
theorem exec_ingestAddr_of_match {s : State} {addr : Nibble} (rsv : Nibble) (hc : s.constructed = true)
    (hcap : 1 ≤ s.params.cap) (hmatch : addressMatch s.ownAddr (receivedAddress addr) = true) :
    exec (.ingestAddr addr rsv) s =
      .next ((s.replace [addressByte addr rsv]).withOutput (.response .noResponse) none) := by
  rw [exec, execIngestAddr, s.whenConstructed_of hc, if_pos hmatch, s.pushAfterClear_eq _ hcap, State.finish]

theorem exec_ingestAddr_of_mismatch {s : State} {addr : Nibble} (rsv : Nibble) (hc : s.constructed = true)
    (hmatch : addressMatch s.ownAddr (receivedAddress addr) = false) :
    exec (.ingestAddr addr rsv) s = .next (s.clear.withOutput (.response .noResponse)
      (some (.addressMismatch (receivedAddress addr)))) := by
  rw [exec, execIngestAddr, s.whenConstructed_of hc, hmatch, if_neg Bool.false_ne_true, State.finish]

/-- Settles O19. -/
theorem ingestAddrRestartsOrClears : Obligations.IngestAddrRestartsOrClears := by
  unfold Obligations.IngestAddrRestartsOrClears
  intro s addr rsv hc hcap
  have hclauses : addressMatch s.ownAddr (receivedAddress addr) = true ↔
      s.ownAddr &&& addr.setWidth 8 = s.ownAddr ∨ addr.setWidth 8 = (0x0F : Byte) := addressMatch_iff _ _
  cases hmatch : addressMatch s.ownAddr (receivedAddress addr) with
  | true =>
    rw [exec_ingestAddr_of_match rsv hc hcap hmatch, if_pos (hclauses.mp hmatch)]
    rfl
  | false =>
    rw [exec_ingestAddr_of_mismatch rsv hc hmatch,
      if_neg (mt hclauses.mpr (Bool.eq_false_iff.mp hmatch))]
    rfl

/-! ## INGEST.DATA -/

/-- R126, R131: the response to a data word after which the buffer holds these bytes. -/
def appendResponse : Role → List Byte → Response
  | .master, _ => .noResponse
  | .slave, bytes => fastResponse (parseFrame bytes)

/-- Log 14: the condition that goes with it. -/
def appendCondition : Role → List Byte → Option Condition
  | .master, _ => none
  | .slave, bytes => fastCondition (parseFrame bytes)

theorem exec_ingestData_of_idle {s : State} (data : Byte) (hc : s.constructed = true) (hidle : s.len = 0) :
    exec (.ingestData data) s = .next (s.withOutput (.response .noResponse) none) := by
  rw [exec, execIngestData, s.whenConstructed_of hc, if_pos hidle, State.finish]

/-- R127: the word that finds no room. -/
theorem exec_ingestData_of_full {s : State} (data : Byte) (hc : s.constructed = true) (hne : s.len ≠ 0)
    (hfull : s.params.cap ≤ s.len) : exec (.ingestData data) s =
      .next (s.clear.withOutput (.response (overflowResponse s.role)) (some .bufferExhausted)) := by
  rw [exec, execIngestData, s.whenConstructed_of hc, if_neg hne, State.push_of_full data hfull]
  rfl

/-- R126: the word that is appended, in either role. -/
theorem exec_ingestData_of_room {s : State} {held : List Byte} (data : Byte) (hc : s.constructed = true)
    (hs : s.Holds held) (hne : s.len ≠ 0) (hroom : s.len < s.params.cap) : exec (.ingestData data) s =
      .next ((s.append data).withOutput (.response (appendResponse s.role (held ++ [data])))
        (appendCondition s.role (held ++ [data]))) := by
  rw [exec, execIngestData, s.whenConstructed_of hc, if_neg hne, State.push_of_room data hroom]
  cases s.role with
  | master => rfl
  | slave => exact State.withView_of_holds (State.holds_append hs (hs.2.1 ▸ hroom) data) _

theorem State.len_ne_zero_of_holds {s : State} {bytes : List Byte} (hs : s.Holds bytes) (hne : bytes ≠ []) :
    s.len ≠ 0 := by
  rw [hs.2.1]
  exact mt List.length_eq_zero_iff.mp hne

theorem overflowResponse_eq_ite (role : Role) :
    overflowResponse role = if role = .slave then .nack else .noResponse := by
  cases role <;> rfl

/-- R128, R129: the fast path answers exactly a decode that succeeds. -/
theorem fastResponse_eq_noResponse_iff (p : Parsed ParsedFrame) :
    fastResponse p = .noResponse ↔ ∀ q, p ≠ .ok q := by
  cases p with
  | ok q =>
    rw [fastResponse]
    split <;> simp
  | incomplete => simp [fastResponse]
  | malformed => simp [fastResponse]

/-- Settles O20. -/
theorem ingestDataFollowsItsRule : Obligations.IngestDataFollowsItsRule := by
  unfold Obligations.IngestDataFollowsItsRule
  intro s bytes data hc hs
  have hlen : s.len = bytes.length := hs.2.1
  refine ⟨fun hnil => ?_, fun hne hfull => ?_, fun hne hroom hrole => ?_, fun hne hroom hrole => ?_⟩
  · subst hnil
    exact exec_ingestData_of_idle data hc hlen
  · rw [exec_ingestData_of_full data hc (State.len_ne_zero_of_holds hs hne) (by omega),
      overflowResponse_eq_ite]
    rfl
  · rw [exec_ingestData_of_room data hc hs (State.len_ne_zero_of_holds hs hne) (by omega),
      State.append_eq_of_holds hs hroom, hrole]
    rfl
  · refine ⟨fastResponse (parseFrame (bytes ++ [data])), fastCondition (parseFrame (bytes ++ [data])), ?_,
      fun p hp => ?_, (fastResponse_eq_noResponse_iff _).mpr⟩
    · rw [exec_ingestData_of_room data hc hs (State.len_ne_zero_of_holds hs hne) (by omega),
        State.append_eq_of_holds hs hroom, hrole]
      rfl
    · rw [hp]
      exact ⟨fun hright => ⟨if_pos (crcCheck_iff.mpr hright), if_pos (crcCheck_iff.mpr hright)⟩,
        fun hwrong => ⟨if_neg (mt crcCheck_iff.mp hwrong), if_neg (mt crcCheck_iff.mp hwrong)⟩⟩

/-! ## The bytes an operation leaves -/

/-- R42: an append puts its byte at `LEN`. -/
theorem State.bufRead_append_len {s : State} (b : Byte) (hroom : s.len < s.params.cap) :
    (s.append b).bufRead s.len = .ok b := by
  simp only [State.bufRead, State.append_params, State.append_buf, Memory.read_write_same,
    if_neg (Nat.not_le.mpr hroom)]

/-- What INGEST.DATA makes of `LEN` and `BUF` (R126): nothing, a clear, or one append. -/
theorem exec_ingestData_buffer {data : Byte} {s t : State} (h : exec (.ingestData data) s = .next t) :
    ∃ u r c, t = u.withOutput r c ∧
      (s.len = 0 ∧ u = s ∨ s.len ≠ 0 ∧ s.params.cap ≤ s.len ∧ u = s.clear ∨
        s.len ≠ 0 ∧ s.len < s.params.cap ∧ u = s.append data) := by
  rcases (execIngestData_cases h).2 with ⟨hidle, ht⟩ | ⟨hne, hfull, ht⟩ | ⟨hne, hroom, -, ht⟩ |
    ⟨hne, hroom, -, _, -, ht⟩
  · exact ⟨_, _, _, ht, .inl ⟨hidle, rfl⟩⟩
  · exact ⟨_, _, _, ht, .inr (.inl ⟨hne, hfull, rfl⟩)⟩
  · exact ⟨_, _, _, ht, .inr (.inr ⟨hne, hroom, rfl⟩)⟩
  · exact ⟨_, _, _, ht, .inr (.inr ⟨hne, hroom, rfl⟩)⟩

/-- Settles O21. -/
theorem ingestDataWritesOneByte : Obligations.IngestDataWritesOneByte := by
  unfold Obligations.IngestDataWritesOneByte
  intro s t data h
  obtain ⟨u, r, c, rfl, hu⟩ := exec_ingestData_buffer h
  simp only [State.bufRead_withOutput, State.withOutput_len]
  rcases hu with ⟨hidle, rfl⟩ | ⟨hne, hfull, rfl⟩ | ⟨hne, hroom, rfl⟩
  · exact ⟨fun _ => ⟨fun _ _ => rfl, fun _ => ⟨hidle, rfl⟩, fun hne => absurd hidle hne⟩,
      fun hne => absurd hidle hne⟩
  · exact ⟨fun hor => by omega, fun _ _ => rfl⟩
  · exact ⟨fun _ => ⟨fun i hi => State.bufRead_append_other data hi, fun hidle => absurd hidle hne,
      fun _ => ⟨rfl, State.bufRead_append_len data hroom⟩⟩, fun _ hfull => by omega⟩

/-- R40: only an index inside the address space reads as a byte. -/
theorem State.lt_cap_of_bufRead {s : State} {i : Nat} {b : Byte} (h : s.bufRead i = .ok b) :
    i < s.params.cap := by
  by_contra hout
  rw [State.bufRead, if_pos (Nat.not_lt.mp hout)] at h
  cases h

theorem State.bufRead_replace {s : State} {bytes : List Byte} {i : Nat} (hi : i < bytes.length)
    (hcap : i < s.params.cap) : (s.replace bytes).bufRead i = .ok bytes[i] := by
  simp [State.bufRead, Nat.not_le.mpr hcap, Memory.read_ofBytes, hi]

/-- R143: the remainder moves down by the `4 + L` bytes of the image. -/
theorem State.replace_remainder {s : State} {bytes : List Byte} {p : ParsedFrame} (hview : s.view = .ok bytes)
    (hp : parseFrame bytes = .ok p) :
    p.remainder.length + 4 + p.payload.length = s.len ∧ ∀ a, a < p.remainder.length →
      (s.replace p.remainder).bufRead a = s.bufRead (4 + p.payload.length + a) := by
  obtain ⟨hlen, hread⟩ := State.view_ok hview
  obtain ⟨first, length, lo, hi, rfl, -⟩ := parseFrame_eq_ok hp
  simp only [List.length_cons, List.length_append] at hlen
  refine ⟨by omega, fun a ha => ?_⟩
  have hsource := hread (4 + p.payload.length + a) (by simp; omega)
  have hcap : 4 + p.payload.length + a < s.params.cap := State.lt_cap_of_bufRead hsource
  rw [hsource, State.bufRead_replace ha (by omega)]
  simp [show 4 + p.payload.length + a = p.payload.length + (a + 2) + 1 + 1 by omega]

theorem resetRefused_slave_of_gt {own : Byte} (h : 0x0F < own.toNat) : resetRefused .slave own = true := by
  have hlegal : ¬ legalAddress own = true := mt (legalAddress_iff own).mp (Nat.not_le.mpr h)
  rw [resetRefused, Bool.eq_false_iff.mpr hlegal]
  rfl

/-- R190, R191: a RESET stores nothing or clears. -/
theorem exec_reset_stores {role : Role} {own : Byte} {s t : State} (h : exec (.reset role own) s = .next t) :
    (role = .slave ∧ 0x0F < own.toNat → t.len = s.len ∧ ∀ a, t.bufRead a = s.bufRead a) ∧
    (role = .master ∨ own.toNat ≤ 0x0F → t.len = 0) := by
  rcases execReset_cases h with ⟨hrefused, rfl⟩ | ⟨hdone, rfl⟩
  · refine ⟨fun _ => ⟨rfl, State.bufRead_withOutput s _ _⟩, ?_⟩
    rintro (rfl | hlegal)
    · cases hrefused
    · rw [resetRefused_of_legal hlegal] at hrefused
      cases hrefused
  · refine ⟨?_, fun _ => rfl⟩
    rintro ⟨rfl, hbig⟩
    rw [resetRefused_slave_of_gt hbig] at hdone
    cases hdone

/-- R140, R142: an ASSEMBLE stores nothing, or moves the remainder of the frame it returns. -/
theorem exec_assemble_stores {s t : State} (h : exec .assemble s = .next t) :
    (∀ c, t.output = some { result := .assembled none, condition := c } →
      t.len = s.len ∧ ∀ a, t.bufRead a = s.bufRead a) ∧
    (∀ f c, t.output = some { result := .assembled (some f), condition := c } →
      t.len + 4 + f.length = s.len ∧ ∀ a, a < t.len → t.bufRead a = s.bufRead (4 + f.length + a)) := by
  obtain ⟨-, bytes, hview, ⟨p, hp, rfl⟩ | ⟨-, rfl⟩ | ⟨-, rfl⟩⟩ := execAssemble_cases h
  · refine ⟨nofun, fun f c hout => ?_⟩
    cases hout
    simp only [State.bufRead_withOutput]
    exact State.replace_remainder hview hp
  · exact ⟨fun _ _ => ⟨rfl, State.bufRead_withOutput s _ _⟩, nofun⟩
  · exact ⟨fun _ _ => ⟨rfl, State.bufRead_withOutput s _ _⟩, nofun⟩

/-- R125: an address word stores its own byte or clears. -/
theorem exec_ingestAddr_stores {addr rsv : Nibble} {s t : State} (h : exec (.ingestAddr addr rsv) s = .next t) :
    (addressMatch s.ownAddr (receivedAddress addr) = true → 1 ≤ s.params.cap →
      t.len = 1 ∧ t.bufRead 0 = .ok (addressByte addr rsv)) ∧
    (addressMatch s.ownAddr (receivedAddress addr) = false → t.len = 0) := by
  rcases (execIngestAddr_cases h).2 with ⟨hmatch, rfl⟩ | ⟨hmatch, rfl⟩
  · refine ⟨fun _ hcap => ?_, fun hmismatch => absurd (hmatch.symm.trans hmismatch) (by decide)⟩
    rw [State.bufRead_withOutput, s.pushAfterClear_eq _ hcap]
    exact ⟨rfl, State.bufRead_replace Nat.one_pos hcap⟩
  · exact ⟨fun hmatched => absurd (hmatched.symm.trans hmatch) (by decide), fun _ => rfl⟩

/-- Settles O22. -/
theorem otherOperationsStoreWhatTheirRulesSay : Obligations.OtherOperationsStoreWhatTheirRulesSay := by
  unfold Obligations.OtherOperationsStoreWhatTheirRulesSay
  intro i s t h
  refine ⟨?send, ?reset, ?nothing, ?frame, ?address⟩
  case send =>
    rintro payload rfl
    obtain ⟨-, r, c, rfl, -⟩ := execSend_cases h
    exact ⟨rfl, State.bufRead_withOutput s _ _⟩
  case reset =>
    rintro role own rfl
    exact exec_reset_stores h
  case nothing =>
    rintro c rfl
    exact (exec_assemble_stores h).1 c
  case frame =>
    rintro f c rfl
    exact (exec_assemble_stores h).2 f c
  case address =>
    rintro addr rsv rfl
    exact exec_ingestAddr_stores h

/-! ## The phases and the decode -/

/-- R24: the shape of a sequence in each phase. -/
inductive PhaseShape : List Byte → Phase → Prop
  | idle : PhaseShape [] .idle
  | haveAddr (first : Byte) : PhaseShape [first] .haveAddr
  | badLen (first : Byte) (rest : List Byte) : PhaseShape (first :: Config.rejectedLength :: rest) .badLen
  | payload {first length : Byte} {rest : List Byte} (hl : length ≠ Config.rejectedLength)
      (h : rest.length < length.toNat) : PhaseShape (first :: length :: rest) .payload
  | checksum {first length : Byte} {rest : List Byte} (hl : length ≠ Config.rejectedLength)
      (h : length.toNat ≤ rest.length) (h' : rest.length < length.toNat + 2) :
      PhaseShape (first :: length :: rest) .checksum
  | complete {first length : Byte} {rest : List Byte} (hl : length ≠ Config.rejectedLength)
      (h : length.toNat + 2 ≤ rest.length) : PhaseShape (first :: length :: rest) .complete

theorem phaseShape_phaseOf (bytes : List Byte) : PhaseShape bytes (phaseOf bytes) := by
  match bytes with
  | [] => exact .idle
  | [first] => exact .haveAddr first
  | first :: length :: rest =>
    by_cases hl : length = Config.rejectedLength
    · subst hl
      rw [phaseOf_rejected]
      exact .badLen first rest
    · rcases lt_or_ge rest.length length.toNat with hpayload | hpayload
      · rw [phaseOf_payload hl hpayload]
        exact .payload hl hpayload
      · rcases lt_or_ge rest.length (length.toNat + 2) with hshort | hwhole
        · rw [phaseOf_checksum hl hpayload hshort]
          exact .checksum hl hpayload hshort
        · rw [phaseOf_complete hl hwhole]
          exact .complete hl hwhole

theorem phaseShape_of_phaseOf {bytes : List Byte} {phase : Phase} (h : phaseOf bytes = phase) :
    PhaseShape bytes phase := h ▸ phaseShape_phaseOf bytes

theorem phaseOf_complete_of_ok {bytes : List Byte} {p : ParsedFrame} (h : parseFrame bytes = .ok p) :
    phaseOf bytes = .complete := by
  obtain ⟨first, length, lo, hi, rfl, hl, hpayload, -⟩ := parseFrame_eq_ok h
  refine phaseOf_complete hl ?_
  rw [List.length_append, hpayload, List.length_cons, List.length_cons]
  omega

/-- R24: in every other phase the decode finds no frame, so the fast path is silent. -/
theorem appendResponse_of_not_complete {bytes : List Byte} (role : Role) (h : phaseOf bytes ≠ .complete) :
    appendResponse role bytes = .noResponse := by
  cases role with
  | master => rfl
  | slave => exact (fastResponse_eq_noResponse_iff _).mpr fun p hp => h (phaseOf_complete_of_ok hp)

/-- R129: bytes behind a whole image do not change the answer to it. -/
theorem fastResponse_append_of_ok {bytes : List Byte} {p : ParsedFrame} (h : parseFrame bytes = .ok p)
    (more : List Byte) : fastResponse (parseFrame (bytes ++ more)) = fastResponse (parseFrame bytes) := by
  rw [parseFrame_append_of_ok h, h]
  rfl

theorem phaseOf_eq_badLen_iff (bytes : List Byte) : phaseOf bytes = .badLen ↔ bytes[1]? = some 0xFF := by
  constructor
  · intro h
    cases phaseShape_of_phaseOf h
    rfl
  · intro h
    match bytes, h with
    | first :: length :: rest, h =>
      obtain rfl : length = Config.rejectedLength := Option.some.inj h
      exact phaseOf_rejected first rest

/-! ## A phase at a time: R130 -/

theorem phaseOf_append_of_haveAddr {bytes : List Byte} (h : phaseOf bytes = .haveAddr) (data : Byte) :
    phaseOf (bytes ++ [data]) =
      if data = 0xFF then .badLen else if data = 0x00 then .checksum else .payload := by
  cases phaseShape_of_phaseOf h with
  | haveAddr first =>
    rw [List.singleton_append]
    by_cases hl : data = Config.rejectedLength
    · subst hl
      exact phaseOf_rejected first []
    · rw [if_neg hl]
      by_cases hzero : data = 0x00
      · subst hzero
        rfl
      · rw [if_neg hzero]
        have hpos : data.toNat ≠ 0 := fun h0 => hzero (BitVec.eq_of_toNat_eq h0)
        exact phaseOf_payload hl (Nat.pos_of_ne_zero hpos)

theorem phaseOf_append_of_payload {bytes : List Byte} {l : Byte} (h : phaseOf bytes = .payload)
    (hlength : bytes[1]? = some l) (data : Byte) :
    phaseOf (bytes ++ [data]) = if bytes.length + 1 < 2 + l.toNat then .payload else .checksum := by
  cases phaseShape_of_phaseOf h with
  | @payload first length rest hl hshort =>
    obtain rfl : length = l := Option.some.inj hlength
    have hlen : (first :: length :: rest).length = rest.length + 2 := rfl
    have hrest : (rest ++ [data]).length = rest.length + 1 := List.length_append
    rw [List.cons_append, List.cons_append]
    split
    · exact phaseOf_payload hl (by omega)
    · exact phaseOf_checksum hl (by omega) (by omega)

theorem phaseOf_append_of_checksum {bytes : List Byte} {l : Byte} (h : phaseOf bytes = .checksum)
    (hlength : bytes[1]? = some l) (data : Byte) :
    (bytes.length + 1 = 3 + l.toNat → phaseOf (bytes ++ [data]) = .checksum) ∧
    (bytes.length + 1 = 4 + l.toNat → phaseOf (bytes ++ [data]) = .complete) := by
  cases phaseShape_of_phaseOf h with
  | @checksum first length rest hl hpayload hshort =>
    obtain rfl : length = l := Option.some.inj hlength
    have hlen : (first :: length :: rest).length = rest.length + 2 := rfl
    have hrest : (rest ++ [data]).length = rest.length + 1 := List.length_append
    rw [List.cons_append, List.cons_append]
    exact ⟨fun _ => phaseOf_checksum hl (by omega) (by omega), fun _ => phaseOf_complete hl (by omega)⟩

theorem phaseOf_append_of_complete {bytes : List Byte} (h : phaseOf bytes = .complete) (data : Byte) :
    phaseOf (bytes ++ [data]) = .complete := by
  cases phaseShape_of_phaseOf h with
  | complete hl hwhole =>
    rw [List.cons_append, List.cons_append]
    refine phaseOf_complete hl (hwhole.trans ?_)
    rw [List.length_append]
    exact Nat.le_add_right _ _

theorem phaseOf_append_of_badLen {bytes : List Byte} (h : phaseOf bytes = .badLen) (data : Byte) :
    phaseOf (bytes ++ [data]) = .badLen := by
  rw [phaseOf_eq_badLen_iff] at h ⊢
  exact getElem?_append_of_eq_some h _

/-- R127: in a legal buffer that is full the phase is one of two. -/
theorem phaseOf_of_minCap_le {bytes : List Byte} (h : Config.minCap ≤ bytes.length) :
    phaseOf bytes = .complete ∨ phaseOf bytes = .badLen := by
  cases hp : parseFrame bytes with
  | ok p => exact .inl (phaseOf_complete_of_ok hp)
  | incomplete => exact absurd hp (parseFrame_ne_incomplete h)
  | malformed => exact .inr ((phaseOf_eq_badLen_iff bytes).mpr ((parseFrame_outcomes bytes).1.mp hp))

/-- R142: ASSEMBLE where the buffer begins with no whole image. -/
theorem execAssemble_of_not_ok {s : State} {bytes : List Byte} (hc : s.constructed = true) (hs : s.Holds bytes)
    (h : ∀ p, parseFrame bytes ≠ .ok p) :
    ∃ c, execAssemble s = .next (s.withOutput (.assembled none) c) := by
  rw [execAssemble, s.whenConstructed_of hc, State.withView_of_holds hs, parseFrameOwned]
  cases hp : parseFrame bytes with
  | ok p => exact absurd hp (h p)
  | incomplete => exact ⟨_, rfl⟩
  | malformed => exact ⟨_, rfl⟩

/-- Settles O24: `0xFF` at index 1 stays there as bytes are appended, and no decode of it succeeds. -/
theorem malformedLengthIsHeldUntilOverflow : Obligations.MalformedLengthIsHeldUntilOverflow := by
  unfold Obligations.MalformedLengthIsHeldUntilOverflow
  intro s bytes data hc hs hFF
  have hbad : phaseOf bytes = .badLen := (phaseOf_eq_badLen_iff bytes).mpr hFF
  have hlen : s.len = bytes.length := hs.2.1
  have hne : s.len ≠ 0 := State.len_ne_zero_of_holds hs fun hnil => by simp [hnil] at hFF
  refine ⟨fun hroom => ?_, fun hfull => ?_, ?_⟩
  · have hphase : phaseOf (bytes ++ [data]) = .badLen := phaseOf_append_of_badLen hbad data
    have hholds : (s.append data).Holds (bytes ++ [data]) := State.holds_append hs (hlen ▸ hroom) data
    have hsilent : appendResponse s.role (bytes ++ [data]) = .noResponse :=
      appendResponse_of_not_complete _ (by rw [hphase]; nofun)
    refine ⟨_, exec_ingestData_of_room data hc hs hne hroom, hholds, congrArg some hsilent, ?_⟩
    exact hphase ▸ State.phase_of_holds hholds
  · exact ⟨_, exec_ingestData_of_full data hc hne hfull.ge, s.holds_clear,
      congrArg some (overflowResponse_eq_ite s.role)⟩
  · have hnone : ∀ p, parseFrame bytes ≠ .ok p := fun p hp => by
      cases hbad.symm.trans (phaseOf_complete_of_ok hp)
    obtain ⟨c, hexec⟩ := execAssemble_of_not_ok hc hs hnone
    exact ⟨_, c, hexec, hs, rfl⟩

/-- Settles O25: an answer that leaves the frame in the buffer is that of a Slave to a whole image, and the image
stays whole. -/
theorem trailingDataRepeatsTheResponse : Obligations.TrailingDataRepeatsTheResponse := by
  unfold Obligations.TrailingDataRepeatsTheResponse
  intro s t first next r hs h hr hanswer hne hroom
  obtain ⟨hc, ⟨hidle, rfl⟩ | ⟨-, -, rfl⟩ | ⟨-, -, -, rfl⟩ | ⟨-, hfirst, hrole, bytes, hview, rfl⟩⟩ :=
    execIngestData_cases h
  · exact absurd hidle hne
  · exact absurd rfl hne
  · cases hr
    exact absurd rfl hanswer
  · obtain rfl : fastResponse (parseFrame bytes) = r := Option.some.inj hr
    obtain ⟨p, hp⟩ : ∃ p, parseFrame bytes = .ok p := by
      by_contra hnone
      exact hanswer ((fastResponse_eq_noResponse_iff _).mpr (not_exists.mp hnone))
    have happend : (s.append first).bufferOk := (State.BufferWrite.append first hfirst).bufferOk hs
    obtain rfl := Except.ok.inj ((State.view_of_bufferOk happend).symm.trans hview)
    refine ⟨_, exec_ingestData_of_room next hc (State.holds_of_bufferOk happend) hne hroom, ?_, rfl,
      fun i hi => ?_, ?_⟩
    · show some (appendResponse s.role _) = _
      rw [hrole]
      exact congrArg some (fastResponse_append_of_ok hp [next])
    · rw [State.bufRead_withOutput]
      exact State.bufRead_append_other next hi.ne
    · rw [State.bufRead_withOutput]
      exact State.bufRead_append_len next hroom

/-- The rows of R130 for INGEST.ADDR. -/
theorem exec_ingestAddr_phase {s : State} (addr rsv : Nibble) (hc : s.constructed = true)
    (hcap : 1 ≤ s.params.cap) : ∃ t, exec (.ingestAddr addr rsv) s = .next t ∧
      Output.response t.output = some .noResponse ∧
      (addressMatch s.ownAddr (receivedAddress addr) = true → t.phase = .ok .haveAddr ∧ t.len = 1) ∧
      (addressMatch s.ownAddr (receivedAddress addr) = false → t.phase = .ok .idle) := by
  cases hmatch : addressMatch s.ownAddr (receivedAddress addr) with
  | true =>
    have hholds := s.holds_replace (bytes := [addressByte addr rsv]) hcap
    exact ⟨_, exec_ingestAddr_of_match rsv hc hcap hmatch, rfl,
      fun _ => ⟨State.phase_of_holds hholds, rfl⟩, nofun⟩
  | false =>
    exact ⟨_, exec_ingestAddr_of_mismatch rsv hc hmatch, rfl, nofun,
      fun _ => State.phase_of_holds s.holds_clear⟩

/-- The rows of R130 for ASSEMBLE. -/
theorem exec_assemble_phase {s : State} {bytes : List Byte} (hc : s.constructed = true) (hs : s.Holds bytes) :
    ∃ t, exec .assemble s = .next t ∧ Output.response t.output = none ∧
      (∀ p, parseFrame bytes = .ok p → phaseOf bytes = .complete ∧ t.phase = .ok (phaseOf p.remainder)) ∧
      ((∀ p, parseFrame bytes ≠ .ok p) → t.phase = s.phase) := by
  by_cases hnone : ∀ p, parseFrame bytes ≠ .ok p
  · obtain ⟨c, hexec⟩ := execAssemble_of_not_ok hc hs hnone
    refine ⟨_, hexec, rfl, fun p hp => absurd hp (hnone p), fun _ => ?_⟩
    rw [State.phase, State.view_withOutput, State.phase]
  · obtain ⟨p, hp⟩ : ∃ p, parseFrame bytes = .ok p := by simpa using hnone
    have hholds : (s.replace p.remainder).Holds p.remainder :=
      s.holds_replace ((parseFrame_remainder_length hp).trans hs.2.2)
    refine ⟨_, execAssemble_of_ok hc hs hp, rfl, fun q hq => ?_, fun hno => absurd hp (hno p)⟩
    cases hp.symm.trans hq
    exact ⟨phaseOf_complete_of_ok hp, State.phase_of_holds hholds⟩

/-- R126, R127: the phase and the response after a data word, by what becomes of the word. -/
theorem exec_ingestData_phase {s : State} {bytes : List Byte} (data : Byte) (hc : s.constructed = true)
    (hs : s.Holds bytes) : ∃ t phase response, exec (.ingestData data) s = .next t ∧ t.phase = .ok phase ∧
      Output.response t.output = some response ∧
      (bytes = [] ∧ phase = .idle ∧ response = .noResponse ∨
        bytes ≠ [] ∧ s.len = s.params.cap ∧ phase = .idle ∧ response = overflowResponse s.role ∨
        bytes ≠ [] ∧ s.len < s.params.cap ∧ phase = phaseOf (bytes ++ [data]) ∧
          response = appendResponse s.role (bytes ++ [data])) := by
  have hlen : s.len = bytes.length := hs.2.1
  have hcap : bytes.length ≤ s.params.cap := hs.2.2
  by_cases hnil : bytes = []
  · subst hnil
    exact ⟨_, _, _, exec_ingestData_of_idle data hc hlen, State.phase_of_holds hs, rfl, .inl ⟨rfl, rfl, rfl⟩⟩
  · have hne : s.len ≠ 0 := State.len_ne_zero_of_holds hs hnil
    rcases lt_or_ge s.len s.params.cap with hroom | hfull
    · have hholds : (s.append data).Holds (bytes ++ [data]) := State.holds_append hs (hlen ▸ hroom) data
      exact ⟨_, _, _, exec_ingestData_of_room data hc hs hne hroom, State.phase_of_holds hholds, rfl,
        .inr (.inr ⟨hnil, hroom, rfl, rfl⟩)⟩
    · exact ⟨_, _, _, exec_ingestData_of_full data hc hne hfull, State.phase_of_holds s.holds_clear, rfl,
        .inr (.inl ⟨hnil, by omega, rfl, rfl⟩)⟩

/-- R128, R129: the answer to the word that completes an image, or follows one. -/
theorem appendResponse_slave_of_ok {bytes : List Byte} {p : ParsedFrame} (h : parseFrame bytes = .ok p) :
    appendResponse .slave bytes = if crcCheck p.payload p.checksum then .ack else .nack := by
  rw [appendResponse, h, fastResponse]

/-- Settles O28. -/
theorem ingestMovesThePhaseByTheTable : Obligations.IngestMovesThePhaseByTheTable := by
  unfold Obligations.IngestMovesThePhaseByTheTable
  intro s bytes hc hparams hs
  have hcap : 258 ≤ s.params.cap := ((params_wellFormed_iff s.params).mp hparams).1
  have hlen : s.len = bytes.length := hs.2.1
  refine ⟨fun addr rsv => exec_ingestAddr_phase addr rsv hc (by omega), fun data => ?_,
    exec_assemble_phase hc hs⟩
  obtain ⟨t, phase, response, hexec, hphase, hresponse, hcases⟩ := exec_ingestData_phase data hc hs
  refine ⟨t, phase, response, hexec, hphase, hresponse, ?_⟩
  rcases hcases with ⟨rfl, rfl, rfl⟩ | ⟨hne, hfull, rfl, rfl⟩ | ⟨hne, hroom, rfl, rfl⟩
  · simp [phaseOf]
  · have hlast : phaseOf bytes = .complete ∨ phaseOf bytes = .badLen :=
      phaseOf_of_minCap_le (show 258 ≤ bytes.length by omega)
    have hanswer : (s.role = .master → overflowResponse s.role = .noResponse) ∧
        (s.role = .slave → overflowResponse s.role = .nack) := ⟨fun h => by rw [h]; rfl, fun h => by rw [h]; rfl⟩
    rcases hlast with hlast | hlast <;> simpa [hlast, hne, hfull] using hanswer
  · have hsilent : ∀ {q : Phase}, phaseOf (bytes ++ [data]) = q → q ≠ .complete →
        appendResponse s.role (bytes ++ [data]) = .noResponse := fun hq hnot =>
      appendResponse_of_not_complete s.role (hq ▸ hnot)
    refine ⟨fun hmaster => by rw [hmaster]; rfl, fun _ hfull => absurd hfull hroom.ne, fun hidle => ?_,
      fun hhave => ?_, fun l hl hpayload => ?_, fun l hl hchecksum => ⟨fun hthree => ?_, fun hfour => ?_⟩,
      fun hcomplete _ => ?_, fun hbad _ => ?_⟩
    · cases phaseShape_of_phaseOf hidle
      exact absurd rfl hne
    · have hnext := phaseOf_append_of_haveAddr hhave data
      exact ⟨hsilent hnext (by split_ifs <;> nofun), hnext⟩
    · have hnext := phaseOf_append_of_payload hpayload hl data
      rw [← hlen] at hnext
      exact ⟨hsilent hnext (by split <;> nofun), hnext⟩
    · have hnext := (phaseOf_append_of_checksum hchecksum hl data).1 (hlen ▸ hthree)
      exact ⟨hnext, hsilent hnext nofun⟩
    · have hnext := (phaseOf_append_of_checksum hchecksum hl data).2 (hlen ▸ hfour)
      exact ⟨hnext, fun hslave p hp => hslave ▸ appendResponse_slave_of_ok hp⟩
    · refine ⟨phaseOf_append_of_complete hcomplete data, fun hslave p hp => ?_⟩
      rw [hslave, appendResponse_slave_of_ok (parseFrame_append_of_ok hp [data])]
    · have hnext := phaseOf_append_of_badLen hbad data
      exact ⟨hnext, hsilent hnext nofun⟩

/-! ## Sequences of operations -/

/-- R131: only a RESET to Slave makes a Master a Slave. -/
theorem exec_role_master {i : Instr} {s t : State} (hrole : s.role = .master)
    (hi : ∀ own, .reset .slave own ≠ i) (h : exec i s = .next t) : t.role = .master := by
  rcases exec_cases h with ⟨u, r, c, hu, rfl⟩ | ⟨role, own, rfl, -, rfl⟩
  · rw [hu.eq_with]
    exact hrole
  · cases role with
    | master => rfl
    | slave => exact absurd rfl (hi own)

/-- R131: what a Master hands back is no ACK and no NACK. -/
theorem exec_master_silent {i : Instr} {s t : State} (hrole : s.role = .master) (h : exec i s = .next t) :
    Output.response t.output ≠ some .ack ∧ Output.response t.output ≠ some .nack := by
  have hnot : ¬ (Output.response t.output = some .ack ∨ Output.response t.output = some .nack) := by
    intro hanswer
    obtain ⟨hslave, -⟩ := onlyASlaveIngestingDataAnswers i s t h hanswer
    cases hrole.symm.trans hslave
  exact not_or.mp hnot

/-- Settles O27, by induction on the operations. -/
theorem masterNeverAnswers : Obligations.MasterNeverAnswers := by
  unfold Obligations.MasterNeverAnswers
  intro is
  induction is with
  | nil =>
    intro s t outs hrole _ h
    cases h
    exact ⟨hrole, nofun⟩
  | cons i is ih =>
    intro s t outs hrole hresets h
    obtain ⟨u, rest, hu, hrest, rfl⟩ := execAll_cons_next h
    have hurole : u.role = .master :=
      exec_role_master hrole (fun own hi => hresets own (hi ▸ List.mem_cons_self)) hu
    obtain ⟨htrole, hsilent⟩ :=
      ih u t rest hurole (fun own hmem => hresets own (List.mem_cons_of_mem _ hmem)) hrest
    exact ⟨htrole, List.forall_mem_cons.mpr ⟨exec_master_silent hrole hu, hsilent⟩⟩

theorem addressOfByte_addressByte (addr rsv : Nibble) :
    addressOfByte (addressByte addr rsv) = receivedAddress addr := by
  rw [addressOfByte, extractLsb'_four_addressByte, receivedAddress]

/-- A frame cut short after its address word is that word and the data words of a cut body. -/
theorem take_frameUnits (first : Byte) (payload : List Byte) (k : Word16) {n : Nat}
    (h : n < payload.length + 3) : (frameUnits first payload k).take (n + 1) =
      { marker := true, data := first } :: ((frameBody payload k).take n).map dataUnit := by
  have hn : n ≤ ((frameBody payload k).map dataUnit).length := by
    rw [List.length_map, frameBody_length]
    omega
  rw [frameUnits_eq_frameBody, List.cons_append, List.take_succ_cons, List.take_append_of_le_length hn,
    List.map_take]

theorem take_frameImage (first : Byte) (payload : List Byte) (k : Word16) {n : Nat}
    (h : n < payload.length + 3) :
    (frameImage first payload k).take (n + 1) = first :: (frameBody payload k).take n := by
  have hn : n ≤ (frameBody payload k).length := by
    rw [frameBody_length]
    omega
  rw [frameImage_eq_frameBody, List.cons_append, List.take_succ_cons, List.take_append_of_le_length hn]

/-- R111, R132: the decode of a frame image cut short waits for more. -/
theorem parseFrame_take_frameImage (first : Byte) {payload : List Byte} (k : Word16) {n : Nat}
    (hpayload : payload.length ≤ Config.maxRxLen) (h : n < payload.length + 3) :
    parseFrame ((frameImage first payload k).take (n + 1)) = .incomplete := by
  have hwhole := parseFrame_frameImage first k [] hpayload
  rw [List.append_nil, ← List.take_append_drop (n + 1) (frameImage first payload k)] at hwhole
  refine parseFrame_incomplete_of_cut hwhole rfl (mt List.drop_eq_nil_iff.mp ?_)
  rw [frameImage_length]
  omega

/-- Settles O29: until the image is whole every word is appended in silence. -/
theorem partialFrameIsSilent : Obligations.PartialFrameIsSilent := by
  unfold Obligations.PartialFrameIsSilent
  intro s addr rsv payload k n hc hparams hmatch hpayload hn
  have hcap : 258 ≤ s.params.cap := ((params_wellFormed_iff s.params).mp hparams).1
  have h254 : payload.length ≤ 254 := hpayload
  have hcut := parseFrame_take_frameImage (addressByte addr rsv) k hpayload hn
  rw [← addressOfByte_addressByte addr rsv] at hmatch
  rw [take_frameImage _ _ _ hn] at hcut ⊢
  rw [take_frameUnits _ _ _ hn]
  have hlength : ((frameBody payload k).take n).length = n :=
    List.length_take_of_le (by rw [frameBody_length]; omega)
  have hroom : ([addressByte addr rsv] ++ (frameBody payload k).take n).length ≤ s.params.cap := by
    rw [List.length_append, hlength, List.length_singleton]
    omega
  obtain ⟨t, outs, hunits, ht, houts⟩ :=
    ingestUnits_incomplete (s := (s.replace [addressByte addr rsv]).withOutput (.response .noResponse) none)
      ((frameBody payload k).take n) hc (s.holds_replace (show 1 ≤ s.params.cap by omega))
      (List.cons_ne_nil _ _) hroom hcut
  refine ⟨t, _, ingestUnits_cons (exec_addressUnit hc (by omega) hmatch) hunits, ht, ?_, ?_⟩
  · rw [ht.2.1, List.singleton_append, List.length_cons, hlength]
  · rw [List.map_cons, houts, hlength]
    rfl

/-- Settles O30. -/
theorem completeFrameIsAnsweredOnItsLastWord : Obligations.CompleteFrameIsAnsweredOnItsLastWord := by
  unfold Obligations.CompleteFrameIsAnsweredOnItsLastWord
  intro s addr rsv payload k hc hparams hrole hmatch hpayload
  rw [← addressOfByte_addressByte addr rsv] at hmatch
  obtain ⟨t, outs, hunits, ht, houts⟩ :=
    ingestUnits_frameUnits k hc ((params_wellFormed_iff s.params).mp hparams).1 hrole hmatch hpayload
  obtain ⟨htparams, htrole, htown, htconstructed⟩ := ingestUnits_config hunits
  refine ⟨t, outs, hunits, ht, htrole, htown, htparams, htconstructed.trans hc, ?_⟩
  simp only [houts, crcCheck_iff]

/-- R126: data words that find the buffer idle are dropped, each in silence. -/
theorem ingestUnits_idle {s : State} (data : List Byte) (hc : s.constructed = true) (hs : s.Holds []) :
    ∃ t outs, ingestUnits (data.map dataUnit) s = .next (t, outs) ∧ t.Holds [] ∧
      outs.map Output.response = List.replicate data.length (some .noResponse) := by
  induction data generalizing s with
  | nil => exact ⟨s, [], rfl, hs, rfl⟩
  | cons b data ih =>
    have hdrop : exec (dataUnit b).instr s = .next (s.withOutput (.response .noResponse) none) := by
      rw [WireUnit.instr_of_unmarked rfl]
      exact exec_ingestData_of_idle _ hc hs.2.1
    obtain ⟨t, outs, hunits, ht, houts⟩ := ih (s := s.withOutput (.response .noResponse) none) hc hs
    refine ⟨t, _, ingestUnits_cons hdrop hunits, ht, ?_⟩
    rw [List.map_cons, houts]
    rfl

/-- Settles O31: the address word clears the buffer, and what follows finds it idle. -/
theorem unrelatedFrameLeavesNothing : Obligations.UnrelatedFrameLeavesNothing := by
  unfold Obligations.UnrelatedFrameLeavesNothing
  intro s addr rsv bytes hc hmatch
  have hclear : exec (WireUnit.instr { marker := true, data := addressByte addr rsv }) s =
      .next (s.clear.withOutput (.response .noResponse) (some (.addressMismatch (receivedAddress addr)))) := by
    rw [WireUnit.instr_of_marked rfl, extractLsb'_four_addressByte]
    exact exec_ingestAddr_of_mismatch _ hc hmatch
  obtain ⟨t, outs, hunits, ht, houts⟩ :=
    ingestUnits_idle (s := s.clear.withOutput (.response .noResponse)
      (some (.addressMismatch (receivedAddress addr)))) bytes hc s.holds_clear
  refine ⟨t, _, ingestUnits_cons hclear hunits, ht, ?_⟩
  rw [List.map_cons, houts]
  rfl

end Sys2Proof.Machine
end

section
/-! The slow path (spec/43_assemble.md): what ASSEMBLE does with the bytes held, when it returns nothing, and frames
taken one after another from one buffer. -/

namespace Sys2Proof.Machine

/-! ## One ASSEMBLE -/

/-- Settles O32. -/
theorem assembleTakesTheFirstFrame : Obligations.AssembleTakesTheFirstFrame := by
  unfold Obligations.AssembleTakesTheFirstFrame
  intro s bytes hc hs
  exact ⟨fun _ hp => execAssemble_of_ok hc hs hp, execAssemble_of_not_ok hc hs⟩

/-- R142: a decode finds no frame where the length byte is missing, is the rejected one, or promises more bytes than
there are. -/
theorem parseFrame_not_ok_iff (bytes : List Byte) :
    (∀ p, parseFrame bytes ≠ .ok p) ↔
      bytes.length < 2 ∨ ∃ l, bytes[1]? = some l ∧ (l = 0xFF ∨ bytes.length < 4 + l.toNat) := by
  obtain ⟨-, -, hok⟩ := parseFrame_outcomes bytes
  rw [← not_exists, hok]
  cases hlength : bytes[1]? with
  | none =>
    have hshort : bytes.length < 2 := Nat.lt_succ_of_le (List.getElem?_eq_none_iff.mp hlength)
    exact ⟨fun _ => .inl hshort, fun _ => nofun⟩
  | some length =>
    have htwo : ¬ bytes.length < 2 := Nat.not_lt.mpr (List.getElem?_eq_some_iff.mp hlength).1
    simp only [Option.some.injEq, exists_eq_left', htwo, false_or, not_and_or, not_not, Nat.not_le]

/-- Settles O33: a failed ASSEMBLE writes the output alone, and no operation reads that. -/
theorem assembleReturnsNothingExactlyWhen : Obligations.AssembleReturnsNothingExactlyWhen := by
  unfold Obligations.AssembleReturnsNothingExactlyWhen
  intro s bytes hc hs
  rw [← parseFrame_not_ok_iff]
  by_cases hnone : ∀ p, parseFrame bytes ≠ .ok p
  · obtain ⟨c, hexec⟩ := execAssemble_of_not_ok hc hs hnone
    have hagain : exec .assemble (s.withOutput (.assembled none) c) = exec .assemble s :=
      (noOperationReadsAnOutput _ _ _ _ []).1
    exact ⟨_, none, c, hexec, rfl, iff_of_true rfl hnone, fun _ => ⟨rfl, hagain.trans hexec⟩⟩
  · obtain ⟨p, hp⟩ : ∃ p, parseFrame bytes = .ok p := by simpa using hnone
    exact ⟨_, some _, none, execAssemble_of_ok hc hs hp, rfl, iff_of_false nofun hnone, nofun⟩

/-! ## One ASSEMBLE after another -/

/-- R56: the first operation, then those after it. -/
theorem execAll_cons {i : Instr} {is : List Instr} {s t u : State} {outs : List (Option Output)}
    (hi : exec i s = .next t) (his : execAll is t = .next (u, outs)) :
    execAll (i :: is) s = .next (u, t.output :: outs) := by
  simp only [execAll, hi, his]

/-- R140, R143: ASSEMBLE of a frame image returns the frame it was built from and leaves what follows the image. -/
theorem exec_assemble_of_image {s : State} {first : Byte} {payload : List Byte} {k : Word16} {rest : List Byte}
    (hc : s.constructed = true) (hpayload : payload.length ≤ Config.maxRxLen)
    (hs : s.Holds (frameImage first payload k ++ rest)) :
    ∃ t, exec .assemble s = .next t ∧ t.constructed = true ∧ t.Holds rest ∧
      t.output = some
        { result := .assembled (some { address := addressOfByte first, payload := payload, checksum := k }),
          condition := none } := by
  have hparse := parseFrame_frameImage first k rest hpayload
  have hfits : (frameImage first payload k ++ rest).length ≤ s.params.cap := hs.2.2
  exact ⟨_, execAssemble_of_ok hc hs hparse, hc,
    s.holds_replace ((parseFrame_remainder_length hparse).trans hfits), rfl⟩

/-- Settles O34, by induction on the frames: each ASSEMBLE takes the first image and leaves the others to the next. -/
theorem repeatedAssembleDeliversEveryFrame : Obligations.RepeatedAssembleDeliversEveryFrame := by
  unfold Obligations.RepeatedAssembleDeliversEveryFrame
  intro frames rest
  induction frames with
  | nil => exact fun s _ _ hs => ⟨s, [], rfl, hs, rfl⟩
  | cons frame frames ih =>
    intro s hc hlengths hs
    obtain ⟨hpayload, hothers⟩ := List.forall_mem_cons.mp hlengths
    rw [List.map_cons, List.flatten_cons, List.append_assoc] at hs
    obtain ⟨t, hfirst, htc, ht, houtput⟩ := exec_assemble_of_image hc hpayload hs
    obtain ⟨u, outs, hrest, hu, rfl⟩ := ih t htc hothers ht
    exact ⟨u, _, execAll_cons hfirst hrest, hu, by rw [houtput, List.map_cons]⟩

end Sys2Proof.Machine
end

section
/-! Outbound framing (spec/44_send.md): the units of a frame as their nine bits, their number and their markers, and
the two ways SEND completes. -/

namespace Sys2Proof.Machine

/-! ## The units as nine bits -/

/-- R60, R62: a data word is worth its byte, bit 8 clear. -/
theorem dataUnit_bits (b : Byte) : (dataUnit b).bits = BitVec.ofNat 9 b.toNat := by
  have hb : b.toNat < 256 := b.isLt
  apply BitVec.eq_of_toNat_eq
  rw [WireUnit.toNat_bits, BitVec.toNat_ofNat, Nat.mod_eq_of_lt (by omega)]
  simp [dataUnit]

/-- R50: the checksum byte sent first is the checksum's remainder by 256. -/
theorem lowByte_toNat (k : Word16) : (lowByte k).toNat = k.toNat % 256 := by
  rw [lowByte, BitVec.extractLsb'_toNat, Nat.shiftRight_zero]

/-- R50: the checksum byte sent second is the checksum's quotient by 256. -/
theorem highByte_toNat (k : Word16) : (highByte k).toNat = k.toNat / 256 := by
  have hk : k.toNat < 65536 := k.isLt
  rw [highByte, BitVec.extractLsb'_toNat, Nat.shiftRight_eq_div_pow, Nat.mod_eq_of_lt (by omega)]

/-- R71, R151: the address word of SEND has zeros at bits 3:0, the own address at bits 7:4 and the marker at bit 8. -/
theorem addressUnit_bits (own : Byte) :
    WireUnit.bits { marker := true, data := sentAddressByte own } =
      0x100#9 ||| ((own &&& 0x0F).setWidth 9 <<< 4) := by
  apply BitVec.eq_of_getLsbD_eq
  intro i hi
  simp only [WireUnit.bits, sentAddressByte, BitVec.getLsbD_append, BitVec.getLsbD_extractLsb',
    BitVec.getLsbD_or, BitVec.getLsbD_shiftLeft, BitVec.getLsbD_setWidth, BitVec.getLsbD_and]
  interval_cases i <;> simp

/-- R64: the bits of a frame, unit by unit, where the length byte can hold the length. -/
theorem frameUnits_bits (first : Byte) {payload : List Byte} (k : Word16) (h : payload.length ≤ Config.maxRxLen) :
    (frameUnits first payload k).map WireUnit.bits =
      [WireUnit.bits { marker := true, data := first }] ++ [BitVec.ofNat 9 payload.length] ++
        payload.map (fun b => b.setWidth 9) ++
        [BitVec.ofNat 9 (k.toNat % 256), BitVec.ofNat 9 (k.toNat / 256)] := by
  have hlength : (dataUnit (lengthByte payload.length)).bits = BitVec.ofNat 9 payload.length := by
    rw [dataUnit_bits, lengthByte_toNat h]
  have hpayload : (payload.map dataUnit).map WireUnit.bits = payload.map fun b => b.setWidth 9 := by
    rw [List.map_map]
    exact List.map_congr_left fun b _ => (dataUnit_bits b).trans (BitVec.ofNat_toNat 9 b)
  simp [frameUnits, hlength, hpayload, dataUnit_bits, lowByte_toNat, highByte_toNat]

/-! ## The number of units and their markers -/

/-- R150: two units before the payload and two after it. -/
theorem frameUnits_length (first : Byte) (payload : List Byte) (k : Word16) :
    (frameUnits first payload k).length = payload.length + 4 := by
  rw [← List.length_map WireUnit.data, frameUnits_data, frameImage_length]

/-- R64, R153: in a frame the first unit, and no other, is an address word. -/
theorem frameUnits_marker_iff {first : Byte} {payload : List Byte} {k : Word16} {n : Nat} {u : WireUnit}
    (h : (frameUnits first payload k)[n]? = some u) : u.marker = true ↔ n = 0 := by
  have hunits : frameUnits first payload k =
      { marker := true, data := first } :: (frameBody payload k ++ [highByte k]).map dataUnit := by
    simp [frameUnits_eq_frameBody]
  rw [hunits] at h
  cases n with
  | zero =>
    cases h
    exact iff_of_true rfl rfl
  | succ n =>
    obtain ⟨b, -, rfl⟩ := List.mem_map.mp (List.mem_of_getElem? h)
    exact iff_of_false nofun (Nat.succ_ne_zero n)

/-! ## SEND -/

/-- R152: SEND of a payload beyond the bound. -/
theorem execSend_of_tooLarge {s : State} {payload : List Byte} (hc : s.constructed = true)
    (h : Config.maxTxLen < payload.length) :
    execSend payload s = .next (s.withOutput (.sent (.payloadTooLarge payload.length))
      (some (.payloadTooLarge payload.length))) := by
  rw [execSend, s.whenConstructed_of hc, if_pos h, State.finish]

/-- Settles O36: SEND completes on either side of the bound, and writes the output alone. -/
theorem sendFramesThePayload : Obligations.SendFramesThePayload := by
  unfold Obligations.SendFramesThePayload
  intro s payload hc
  refine ⟨fun hfits => ⟨sendUnits s.ownAddr payload, ?_, ?_⟩, fun hlarge => execSend_of_tooLarge hc hlarge⟩
  · exact execSend_of_fits hc (Nat.le_of_lt_succ hfits)
  · rw [sendUnits, frameUnits_bits _ _ hfits.le, addressUnit_bits]

/-- Settles O37: the only units SEND answers with are those of the frame. -/
theorem sendMarksTheFirstUnitOnly : Obligations.SendMarksTheFirstUnitOnly := by
  unfold Obligations.SendMarksTheFirstUnitOnly
  intro s t payload units condition h houtput
  obtain ⟨-, r, c, rfl, hcases⟩ := execSend_cases h
  cases houtput
  rcases hcases with ⟨-, hrejected, -⟩ | ⟨-, hunits, -⟩
  · cases hrejected
  · cases hunits
    exact ⟨frameUnits_length _ _ _, fun _ _ => frameUnits_marker_iff⟩

end Sys2Proof.Machine
end

section
/-! Exceptional conditions (spec/60_exceptions.md): no operation stops the block, and each condition comes from the
operation, for the cause and with the result of its row in the table of R161. -/

namespace Sys2Proof.Machine

/-! ## No operation stops the block -/

theorem State.one_le_cap_of_inv {s : State} (hs : s.Inv) : 1 ≤ s.params.cap := by
  have hcap := ((params_wellFormed_iff s.params).mp hs.1).1
  omega

theorem exec_ingestAddr_completes {s : State} (addr rsv : Nibble) (hs : s.Inv) (hc : s.constructed = true) :
    ∃ t, exec (.ingestAddr addr rsv) s = .next t := by
  cases hmatch : addressMatch s.ownAddr (receivedAddress addr) with
  | true => exact ⟨_, exec_ingestAddr_of_match rsv hc (State.one_le_cap_of_inv hs) hmatch⟩
  | false => exact ⟨_, exec_ingestAddr_of_mismatch rsv hc hmatch⟩

theorem exec_ingestData_completes {s : State} {held : List Byte} (data : Byte) (hs : s.Holds held)
    (hc : s.constructed = true) : ∃ t, exec (.ingestData data) s = .next t := by
  by_cases hidle : s.len = 0
  · exact ⟨_, exec_ingestData_of_idle data hc hidle⟩
  · rcases lt_or_ge s.len s.params.cap with hroom | hfull
    · exact ⟨_, exec_ingestData_of_room data hc hs hidle hroom⟩
    · exact ⟨_, exec_ingestData_of_full data hc hidle hfull⟩

theorem exec_assemble_completes {s : State} {held : List Byte} (hs : s.Holds held) (hc : s.constructed = true) :
    ∃ t, exec .assemble s = .next t := by
  obtain ⟨t, h, -⟩ := exec_assemble_phase hc hs
  exact ⟨t, h⟩

theorem exec_send_completes {s : State} (payload : List Byte) (hc : s.constructed = true) :
    ∃ t, exec (.send payload) s = .next t := by
  rcases le_or_gt payload.length Config.maxTxLen with hfits | hlarge
  · exact ⟨_, execSend_of_fits hc hfits⟩
  · exact ⟨_, execSend_of_tooLarge hc hlarge⟩

/-- R192: on every state, constructed or not. -/
theorem exec_reset_completes (s : State) (role : Role) (own : Byte) : ∃ t, exec (.reset role own) s = .next t := by
  rw [exec, execReset]
  split
  · exact ⟨_, rfl⟩
  · exact ⟨_, rfl⟩

/-- R160: no operation faults or is refused on a constructed state of the invariant. Every read is of the bytes the
invariant says are held, and the capacity leaves room for an address byte. -/
theorem exec_completes {s : State} (i : Instr) (hs : s.Inv) (hc : s.constructed = true) :
    ∃ t, exec i s = .next t := by
  have hholds := State.holds_of_bufferOk hs.2.2
  cases i with
  | ingestAddr addr rsv => exact exec_ingestAddr_completes addr rsv hs hc
  | ingestData data => exact exec_ingestData_completes data hholds hc
  | assemble => exact exec_assemble_completes hholds hc
  | send payload => exact exec_send_completes payload hc
  | reset role own => exact exec_reset_completes s role own

/-- R193: no operation undoes the construction. -/
theorem exec_constructed {i : Instr} {s t : State} (hc : s.constructed = true) (h : exec i s = .next t) :
    t.constructed = true := by
  rcases exec_cases h with ⟨u, r, c, hu, rfl⟩ | ⟨role, own, -, -, rfl⟩
  · rw [hu.eq_with]
    exact hc
  · rfl

/-- R22: every operation that completes hands something back. -/
theorem exec_output_ne_none {i : Instr} {s t : State} (h : exec i s = .next t) : t.output ≠ none := by
  rcases exec_cases h with ⟨u, r, c, -, rfl⟩ | ⟨role, own, -, -, rfl⟩
  · exact Option.some_ne_none _
  · exact Option.some_ne_none _

/-- Settles O45, by induction on the operations: the first completes and leaves a state of the same kind for the
others. -/
theorem noOperationStopsTheBlock : Obligations.NoOperationStopsTheBlock := by
  unfold Obligations.NoOperationStopsTheBlock
  intro is
  induction is with
  | nil => exact fun s hs hc => ⟨s, [], rfl, hs, hc, rfl, nofun⟩
  | cons i is ih =>
    intro s hs hc
    obtain ⟨t, ht⟩ := exec_completes i hs hc
    obtain ⟨u, outs, hrest, hu, huc, hlength, houts⟩ := ih t (exec_inv hs ht) (exec_constructed hc ht)
    exact ⟨u, t.output :: outs, execAll_cons ht hrest, hu, huc, congrArg Nat.succ hlength,
      List.forall_mem_cons.mpr ⟨exec_output_ne_none ht, houts⟩⟩

/-! ## The table of conditions -/

/-- Log 14: the parses of the fast path that record a condition, each with its condition and response. -/
theorem fastCondition_eq_some {parsed : Parsed ParsedFrame} {condition : Condition}
    (h : fastCondition parsed = some condition) :
    (parsed = .incomplete ∧ condition = .incomplete ∧ fastResponse parsed = .noResponse) ∨
    (parsed = .malformed ∧ condition = .malformed ∧ fastResponse parsed = .noResponse) ∨
    ∃ p, parsed = .ok p ∧ p.checksum ≠ crc16usb p.payload ∧ condition = .checksumMismatch ∧
      fastResponse parsed = .nack := by
  cases parsed with
  | incomplete => exact .inl ⟨rfl, (Option.some.inj h).symm, rfl⟩
  | malformed => exact .inr (.inl ⟨rfl, (Option.some.inj h).symm, rfl⟩)
  | ok p =>
    rw [fastCondition] at h
    split at h
    · cases h
    · rename_i hcheck
      exact .inr (.inr ⟨p, rfl, mt crcCheck_iff.mpr hcheck, (Option.some.inj h).symm, if_neg hcheck⟩)

/-- Settles O51: of the outcomes of each operation, those that record a condition, each against its row of R161. -/
theorem conditionsAreThoseOfTheTable : Obligations.ConditionsAreThoseOfTheTable := by
  unfold Obligations.ConditionsAreThoseOfTheTable
  intro s t i result condition h houtput
  cases i with
  | ingestAddr addr rsv =>
    rcases (execIngestAddr_cases h).2 with ⟨-, rfl⟩ | ⟨hmismatch, rfl⟩
    · cases houtput
    · cases houtput
      exact ⟨⟨addr, rsv, rfl, rfl⟩, hmismatch, rfl, rfl⟩
  | ingestData data =>
    rcases (execIngestData_cases h).2 with ⟨-, rfl⟩ | ⟨hne, hfull, rfl⟩ | ⟨-, -, -, rfl⟩ |
      ⟨-, -, hrole, bytes, hview, rfl⟩
    · cases houtput
    · cases houtput
      exact ⟨⟨data, rfl⟩, hne, hfull, rfl, rfl⟩
    · cases houtput
    · obtain ⟨hresult, hcondition⟩ := Output.mk.inj (Option.some.inj houtput)
      subst hresult
      rw [State.view_withOutput]
      rcases fastCondition_eq_some hcondition with ⟨hparse, rfl, hresponse⟩ | ⟨hparse, rfl, hresponse⟩ |
        ⟨p, hparse, hwrong, rfl, hresponse⟩
      · exact ⟨⟨bytes, hview, hparse⟩, .inl ⟨⟨data, rfl⟩, hrole, rfl, congrArg _ hresponse⟩⟩
      · exact ⟨⟨bytes, hview, hparse⟩, .inl ⟨⟨data, rfl⟩, hrole, rfl, congrArg _ hresponse⟩⟩
      · exact ⟨⟨data, rfl⟩, hrole, rfl, congrArg _ hresponse, bytes, p, hview, hparse, hwrong⟩
  | assemble =>
    obtain ⟨-, bytes, hview, ⟨p, -, rfl⟩ | ⟨hparse, rfl⟩ | ⟨hparse, rfl⟩⟩ := execAssemble_cases h
    · cases houtput
    · cases houtput
      rw [State.view_withOutput]
      exact ⟨⟨bytes, hview, hparse⟩, .inr ⟨rfl, rfl, rfl, rfl⟩⟩
    · cases houtput
      rw [State.view_withOutput]
      exact ⟨⟨bytes, hview, hparse⟩, .inr ⟨rfl, rfl, rfl, rfl⟩⟩
  | send payload =>
    obtain ⟨-, r, c, rfl, ⟨hlarge, rfl, rfl⟩ | ⟨-, -, rfl⟩⟩ := execSend_cases h
    · cases houtput
      exact ⟨hlarge, ⟨payload, rfl, rfl⟩, rfl, rfl, rfl⟩
    · cases houtput
  | reset role own =>
    rcases execReset_cases h with ⟨-, rfl⟩ | ⟨-, rfl⟩
    · cases houtput
    · cases houtput

end Sys2Proof.Machine
end

section
/-! Reset and hazards (spec/70_reset_and_hazards.md): what a RESET completes with, what is refused before the first
one, and how a frame that is not complete leaves the buffer. -/

namespace Sys2Proof.Machine

/-! ## RESET -/

/-- R191: a refused RESET writes the output alone. -/
theorem exec_reset_of_refused (s : State) {role : Role} {own : Byte} (h : resetRefused role own = true) :
    exec (.reset role own) s = .next (s.withOutput (.resetAnswer .refused) none) := if_pos h

/-- R190: any other RESET installs its configuration and clears the buffer. -/
theorem exec_reset_of_not_refused (s : State) {role : Role} {own : Byte} (h : resetRefused role own = false) :
    exec (.reset role own) s = .next
      ((s.configure role (installedAddress s.params role own)).clear.withOutput (.resetAnswer .done) none) :=
  if_neg (ne_true_of_eq_false h)

/-- R191: only a Slave's operand is checked. -/
theorem resetRefused_master (own : Byte) : resetRefused .master own = false := rfl

/-- Settles O40: the operand decides whether the RESET is refused, and the role which address it installs. -/
theorem resetInstallsTheConfiguration : Obligations.ResetInstallsTheConfiguration := by
  unfold Obligations.ResetInstallsTheConfiguration
  intro s role own
  refine ⟨?refused, ?slave, ?master⟩
  case refused =>
    rintro ⟨rfl, hbig⟩
    exact exec_reset_of_refused s (resetRefused_slave_of_gt hbig)
  case slave =>
    rintro ⟨rfl, hlegal⟩
    exact exec_reset_of_not_refused s (resetRefused_of_legal hlegal)
  case master =>
    rintro rfl
    exact exec_reset_of_not_refused s (resetRefused_master own)

/-! ## Before the first RESET -/

/-- Settles O41: every operation but RESET asks first whether the block is constructed. -/
theorem beforeTheFirstResetOthersAreRefused : Obligations.BeforeTheFirstResetOthersAreRefused := by
  unfold Obligations.BeforeTheFirstResetOthersAreRefused
  intro s i hc hi
  cases i with
  | ingestAddr addr rsv => exact State.whenConstructed_of_not hc _
  | ingestData data => exact State.whenConstructed_of_not hc _
  | assemble => exact State.whenConstructed_of_not hc _
  | send payload => exact State.whenConstructed_of_not hc _
  | reset role own => exact absurd rfl (hi role own)

/-! ## A stale partial frame -/

/-- R203: a state that holds the same bytes still has them at its start. -/
theorem State.exists_holds_append_of_holds {t : State} {bytes : List Byte} (h : t.Holds bytes) :
    ∃ more, t.Holds (bytes ++ more) := ⟨[], by rwa [List.append_nil]⟩

/-- Settles O49: of the operations that neither are INGEST.ADDR nor RESET, a data word takes bytes away only where
there is no room, ASSEMBLE only where the decode succeeds, and SEND nowhere. -/
theorem partialFrameStaysUntilClearedOrCompleted : Obligations.PartialFrameStaysUntilClearedOrCompleted := by
  unfold Obligations.PartialFrameStaysUntilClearedOrCompleted
  intro i s t bytes hs _ hnone h
  cases i with
  | ingestAddr addr rsv => exact .inr (.inl ⟨addr, rsv, rfl⟩)
  | ingestData data =>
    rcases execIngestData_holds hs h with ht | ⟨hfull, -⟩ | ht
    · exact .inl (State.exists_holds_append_of_holds ht)
    · have hle : s.len ≤ s.params.cap := hs.2.1 ▸ hs.2.2
      exact .inr (.inr (.inr ⟨hle.antisymm hfull, data, rfl⟩))
    · exact .inl ⟨[data], ht⟩
  | assemble =>
    rcases execAssemble_holds hs h with ht | ⟨p, hp, -⟩
    · exact .inl (State.exists_holds_append_of_holds ht)
    · exact absurd hp (hnone p)
  | send payload => exact .inl (State.exists_holds_append_of_holds (execSend_holds hs h))
  | reset role own => exact .inr (.inr (.inl ⟨role, own, rfl⟩))

end Sys2Proof.Machine
end
